-- ==== Sys2Proof/Word.lean ====
section
/-! DEFINITION. The unsigned widths the spec computes in (00_scope.md R8): every quantity of this hardware is unsigned
and there is no signed operation, so these are plain bit vectors. -/

namespace Sys2Proof

/-- A word: 32 bits, bit 0 the least significant (R8). -/
abbrev Word := BitVec 32

/-- A byte: 8 bits, bit 7 the most significant (R8). -/
abbrev Byte := BitVec 8

/-- A command word as it stands on the `cmd` port: 10 bits (R60, R61). -/
abbrev CmdWord := BitVec 10

end Sys2Proof
end

