-- ==== Sys2Proof/Syntax.lean ====
section
/-! DEFINITION. The instructions: the four port commands of 30_encoding.md R62, one constructor for each row of
spec/opcode_table.json. The micro-operations of a block compression are not commands (R65); they stand in
Machine/Compress.lean. -/

namespace Sys2Proof

/-- A command. The `data` bits of NOP, INIT and FINALIZE are ignored by the engine (R64), so they are no operand. -/
inductive Instr where
  /-- NOP (R81). -/
  | nop
  /-- INIT (R82). -/
  | init
  /-- ABSORB, with its message byte (R63, R83). -/
  | absorb (b : Byte)
  /-- FINALIZE (R90). -/
  | finalize
deriving DecidableEq, Repr

end Sys2Proof
end

