-- ==== Sys2Proof/WellFormed.lean ====
section
/-! DEFINITION. Well-formedness. Every value of `Instr` is a legal command (R63: every byte is a legal message byte; R64:
no command is reserved or illegal), so the check on `Instr` refuses nothing. What can be ill-formed is what stands
before a command exists: a number offered as a command word, a number offered as a byte, a character offered as ASCII. -/

namespace Sys2Proof

/-- Every command is well formed: ABSORB's operand is any byte and the others have none (R63, R64). -/
def Instr.wellFormed : Instr → Bool
  | .nop => true
  | .init => true
  | .absorb _ => true
  | .finalize => true

/-- A number is a command word exactly if it fits the 10 wires of `cmd` (R60, R61). -/
def wordFits (w : Nat) : Bool := decide (w < 1024)

/-- A number is a message byte exactly if it is 0..255 (R63, R66). -/
def byteFits (n : Nat) : Bool := decide (n < 256)

/-- A character has an ASCII code (R66, R67). -/
def charFits (c : Char) : Bool := decide (c.toNat < 128)

end Sys2Proof
end

