-- ==== Sys2Proof/Decode.lean ====
section
/-! DEFINITION. Decoding (30_encoding.md R61 to R64), the opcode table as data, and the encoder. Decoding a 10-bit command
word is total; a number that does not fit the command port is refused by name. -/

namespace Sys2Proof

/-- `cmd[9:8]`, the operation code (R61). -/
def opField (w : CmdWord) : BitVec 2 := w.extractLsb' 8 2

/-- `cmd[7:0]`, the message byte of ABSORB (R61, R63). -/
def dataField (w : CmdWord) : Byte := w.extractLsb' 0 8

/-- Decoding, total on the 1024 command words (R62); the `data` bits matter to ABSORB only (R64). -/
def decode (w : CmdWord) : Instr :=
  if opField w = 0b00#2 then .nop
  else if opField w = 0b01#2 then .init
  else if opField w = 0b10#2 then .absorb (dataField w)
  else .finalize

/-- Why a number is no command word. -/
inductive DecodeError where
  /-- The number has a bit above bit 9 set: the command port has 10 wires (R60, R61). Raised by `decodeNat`; safe, since
  no such word can be offered to the engine. -/
  | wordTooWide
deriving DecidableEq, Repr

/-- Decoding of a number: refused by name if it does not fit the command port, else the command it names. -/
def decodeNat (w : Nat) : Except DecodeError Instr :=
  if wordFits w then .ok (decode (BitVec.ofNat 10 w)) else .error .wordTooWide

/-- The decoder's answer for a word of the opcode table: bit 0 of `w` is bit 0 of `cmd`. The table gives a row 10 bits,
and a set bit above them is refused; the hardware stores no commands (R53), so there is no byte order to undo. Log
entry 14. -/
def decodeTableWord (nbits w : Nat) : Option Instr :=
  match decodeNat (w % 2 ^ nbits) with
  | .ok i => some i
  | .error _ => none

/-- The encoder: the canonical word of a command, `data = 0x00` where it is ignored (R62, R64). -/
def encode : Instr → CmdWord
  | .nop => 0x000#10
  | .init => 0x100#10
  | .absorb b => 0x200#10 + b.setWidth 10
  | .finalize => 0x300#10

/-- One row of the opcode table (R62). -/
structure OpcodeRow where
  mnemonic : String
  pattern : CmdWord
  mask : CmdWord
deriving DecidableEq, Repr

/-- The opcode table, complete (R62). -/
def opcodeRows : List OpcodeRow :=
  [⟨"NOP", 0x000#10, 0x300#10⟩, ⟨"INIT", 0x100#10, 0x300#10⟩,
   ⟨"ABSORB", 0x200#10, 0x300#10⟩, ⟨"FINALIZE", 0x300#10, 0x300#10⟩]

/-- A word selects a row when its masked bits equal the row's pattern (R62). -/
def OpcodeRow.selectedBy (r : OpcodeRow) (w : CmdWord) : Bool := decide (w &&& r.mask = r.pattern)

/-- The mnemonic of a command, as the opcode table spells it. -/
def Instr.mnemonic : Instr → String
  | .nop => "NOP"
  | .init => "INIT"
  | .absorb _ => "ABSORB"
  | .finalize => "FINALIZE"

end Sys2Proof
end

