-- ==== Sys2Proof/Machine/Operands.lean ====
section
/-! DEFINITION. The word operations and byte-order helpers every rule uses (00_scope.md R9 to R12, 20_memory.md
R43). The one operand of a command, ABSORB's byte, is used as it stands (30_encoding.md R63) and needs no form here. -/

namespace Sys2Proof.Machine

/-- `rotl(x, k)`: bit `i` of `x` becomes bit `(i + k) mod 32` (R9). -/
def rotl (x : Word) (k : Nat) : Word := (x <<< (k % 32)) ||| (x >>> ((32 - k % 32) % 32))

/-- `P0`, used in the compression round only (R12). -/
def p0 (x : Word) : Word := x ^^^ rotl x 9 ^^^ rotl x 17

/-- `P1`, used in message expansion only (R12). -/
def p1 (x : Word) : Word := x ^^^ rotl x 15 ^^^ rotl x 23

/-- `BE32`: four bytes, the first most significant (R11, R43). -/
def be32 (b0 b1 b2 b3 : Byte) : Word := b0 ++ b1 ++ b2 ++ b3

/-- Byte `k` of `BYTES32(w)`, byte 0 the most significant (R11). -/
def bytes32 (w : Word) (k : Fin 4) : Byte := w.extractLsb' (24 - 8 * k.val) 8

/-- Byte `k` of `BYTES64(v)`, byte 0 the most significant (R11). -/
def bytes64 (v : BitVec 64) (k : Fin 8) : Byte := v.extractLsb' (56 - 8 * k.val) 8

/-- The length field's value: `zext_64(total_bits)` (R55, R90 step 5). -/
def lengthField (totalBits : Word) : BitVec 64 := totalBits.setWidth 64

end Sys2Proof.Machine
end

