-- ==== Sys2Proof/Config.lean ====
section
/-! DEFINITION. What is fixed for the machine (00_scope.md R5), the initial value IV (10_state.md R22), and the free
values: constants with no body, standing for what the spec leaves unspecified (R34, R35, R37, R150). -/

namespace Sys2Proof

/-- The eight IV words INIT loads (R22). PRESUMED: the spec marks the values as general knowledge, not in its source
(93_implementation_defined.md K1); log entry 11. -/
def Config.iv : Vector Word 8 :=
  #v[0x7380166f#32, 0x4914b2b9#32, 0x172442d7#32, 0xda8a0600#32,
     0xa96f30bc#32, 0x163138aa#32, 0xe38dee4d#32, 0xb0fb0e4e#32]

/-- Round-constant base of rounds 0..15 (R5, R112). -/
def Config.baseLow : Word := 0x79cc4519#32

/-- Round-constant base of rounds 16..63 (R5, R112). -/
def Config.baseHigh : Word := 0x7a879d8a#32

/-- The first round that uses the majority and choose forms and the second base (R5, R112, R114, R115). -/
abbrev Config.switchRound : Nat := 16

/-- The padding marker byte (R5, R90 step 2). -/
def Config.marker : Byte := 0x80#8

/-- The padding threshold, which is also the offset of the length field (R5, R90 steps 3 to 5). -/
abbrev Config.lengthOffset : Nat := 56

/-- Bytes in a block, the capacity of `pending` (R5, R27). -/
abbrev Config.blockBytes : Nat := 64

/-- Bits in a block, what ABSORB adds to the bit counter for one compression (R5, R28). -/
abbrev Config.blockBits : Nat := 512

/-- FREE VALUE: an unspecified word (R34, R35, R37, R150), one for each number; log entries 5, 6 and 7. -/
opaque Config.freeWord : Nat → Word

/-- FREE VALUE: an unspecified byte of `pending` after a hardware reset (R37, R150); log entries 5 and 7. -/
opaque Config.freeByte : Nat → Byte

/-- FREE VALUE: an unspecified loop index, within the bound 0..67 the spec sets for `j` (R35); log entries 6 and 7. -/
opaque Config.freeIndex : Nat → Fin 68

end Sys2Proof
end

