-- ==== Sys2Proof/Machine/State.lean ====
section
/-! DEFINITION. The state of the engine (10_state.md R20), as plain data: the persistent elements, the transient elements
of a block compression, and two fields of the model's own (the host's offers on the input ports, and the number of free
values drawn so far). Then the state right after power-on reset, and one named update for each field. -/

namespace Sys2Proof.Machine

/-- The lifecycle state, 2 bits (R31). The value 3 is never produced and cannot be written here; log entry 16. -/
inductive Phase where
  /-- 0, IDLE: after hardware reset, no INIT yet. -/
  | idle
  /-- 1, ACTIVE: after INIT, a message is open. -/
  | active
  /-- 2, DONE: after FINALIZE, the state is consumed. -/
  | done
deriving DecidableEq, Repr

/-- The sticky fault code, 2 bits (R30, R130). The value 3 is never produced and cannot be written here; log entry 16. -/
inductive ErrCode where
  /-- 0, NONE: no fault since the last INIT or reset. -/
  | none
  /-- 1, SEQ_ERROR: a command outside the lifecycle (R131). -/
  | seqError
  /-- 2, INPUT_TOO_LARGE: a message of 2^29 bytes or more (R132). -/
  | inputTooLarge
deriving DecidableEq, Repr

/-- The pending buffer (R27): cells of the 64-byte space, addresses strictly rising, listing no byte that equals what an
unlisted address reads as (`Memory.wf` in Machine/Ops.lean). -/
abbrev Memory := List Host.Cell

/-- The working registers of a compression (R35). -/
structure Working where
  a : Word
  b : Word
  c : Word
  d : Word
  e : Word
  f : Word
  g : Word
  h : Word
deriving DecidableEq, Repr

/-- What the host drives on the input ports at one moment at which the engine is between commands (R60). -/
structure PortSample where
  /-- `rst`, hardware reset (R150). -/
  rst : Bool
  /-- `cmd_valid`: the host offers the word on `cmd`. -/
  cmdValid : Bool
  /-- `cmd`, the command word. -/
  cmd : CmdWord
deriving DecidableEq, Repr

/-- The state of the engine (R20). -/
@[ext]
structure State where
  /-- `V[0..7]`, the state register bank (R21). -/
  v : Vector Word 8
  /-- `pending[0..63]`, the pending buffer (R27). -/
  pending : Memory
  /-- `pending_len`, the count of valid bytes in `pending` (R26). -/
  pendingLen : BitVec 7
  /-- `total_bits`, the bit counter (R28). -/
  totalBits : Word
  /-- `ovf`, the sticky carry out of the bit counter (R29). -/
  ovf : Bool
  /-- `err`, the sticky fault code (R30). -/
  err : ErrCode
  /-- `phase`, the lifecycle state (R31). -/
  phase : Phase
  /-- `W[0..67]`, transient (R34). -/
  w : Vector Word 68
  /-- `WP[0..63]`, transient (R34). -/
  wp : Vector Word 64
  /-- `A..H`, transient (R35). -/
  work : Working
  /-- `T`, the running round constant, transient (R35). -/
  t : Word
  /-- `j`, the loop index, transient, 7 bits with values 0..67 (R35). -/
  j : Fin 68
  /-- MODEL'S OWN: what the host drives on the input ports, the next moment first (R60, R158); log entry 8. -/
  inputs : List PortSample
  /-- MODEL'S OWN: how many times free values have been drawn; log entry 7. -/
  draws : Nat
deriving DecidableEq, Repr

/-- Why the machine stops with a fault. The engine's own two faults (R130) are no stop: they are recorded in `err` and
the engine goes on (R136; log entry 1). -/
inductive Fault where
  /-- A byte was to be stored at an offset of 64 or more, outside the 64-byte buffer (R40 to R42). Raised by ABSORB and
  FINALIZE in phase ACTIVE when `pending_len` exceeds 63, which R26 and R36(a) exclude between commands. SAFE: no state
  reachable from reset raises it, and a claim about such a state is out of reach. Log entry 10. -/
  | pendingOutOfRange
deriving DecidableEq, Repr

/-- Why an instruction has no meaning. -/
inductive Refusal where
  /-- The instruction is not modelled. Raised by an arm of `exec` that has no meaning yet; no arm is left so. SAFE. -/
  | notModelled (mnemonic : String)
deriving DecidableEq, Repr

/-- Right after power-on reset (R37, R150). The spec gives `phase`, `err`, `ovf`, `pending_len` and `total_bits`. It
leaves `V`, `pending` and the transient elements unspecified: they hold zero here. DESIGN CHOICE, unsafe: log entries 2,
3 and 4. The host has driven nothing yet: log entry 8. -/
def State.reset : State where
  v := Vector.replicate 8 0
  pending := []
  pendingLen := 0
  totalBits := 0
  ovf := false
  err := .none
  phase := .idle
  w := Vector.replicate 68 0
  wp := Vector.replicate 64 0
  work := ⟨0, 0, 0, 0, 0, 0, 0, 0⟩
  t := 0
  j := 0
  inputs := []
  draws := 0

/-! The named updates, one for each field. -/

def State.setV (s : State) (x : Vector Word 8) : State := { s with v := x }
def State.setPending (s : State) (x : Memory) : State := { s with pending := x }
def State.setPendingLen (s : State) (x : BitVec 7) : State := { s with pendingLen := x }
def State.setTotalBits (s : State) (x : Word) : State := { s with totalBits := x }
def State.setOvf (s : State) (x : Bool) : State := { s with ovf := x }
def State.setErr (s : State) (x : ErrCode) : State := { s with err := x }
def State.setPhase (s : State) (x : Phase) : State := { s with phase := x }
def State.setW (s : State) (x : Vector Word 68) : State := { s with w := x }
def State.setWp (s : State) (x : Vector Word 64) : State := { s with wp := x }
def State.setWork (s : State) (x : Working) : State := { s with work := x }
def State.setT (s : State) (x : Word) : State := { s with t := x }
def State.setJ (s : State) (x : Fin 68) : State := { s with j := x }
def State.setInputs (s : State) (x : List PortSample) : State := { s with inputs := x }
def State.setDraws (s : State) (x : Nat) : State := { s with draws := x }

end Sys2Proof.Machine
end

