-- ==== Sys2Proof/Machine/Flags.lean ====
section
/-! DEFINITION. The flag-like fields (10_state.md section 6): the bit counter with its carry `ovf` (R28, R29), the recording
of a fault in `err` (60_exceptions.md R133), and the outputs computed from the state: `digest_valid`, the STATUS word and
the digest port (R24, R32, R33). -/

namespace Sys2Proof.Machine

/-- Adding `n` to `total_bits`: modulo 2^32, the carry kept in the sticky `ovf` (R28, R29). -/
def State.countBits (s : State) (n : Nat) : State :=
  (s.setOvf (s.ovf || decide (2 ^ 32 ≤ s.totalBits.toNat + n))).setTotalBits (s.totalBits + BitVec.ofNat 32 n)

/-- `raise Fault(code)`, the one way a fault is taken: the first fault since the last INIT or reset is recorded, nothing is
saved, control goes nowhere, and the engine goes on (R133, R136; log entry 1). There is no return from a fault: only
INIT and hardware reset clear `err` (R137). -/
def State.raiseFault (s : State) (code : ErrCode) : State :=
  if s.err = .none then s.setErr code else s

/-- The 2-bit code of a lifecycle state (R31). -/
def phaseCode : Phase → BitVec 2
  | .idle => 0
  | .active => 1
  | .done => 2

/-- The 2-bit code of a fault (R30, R130). -/
def errCodeBits : ErrCode → BitVec 2
  | .none => 0
  | .seqError => 1
  | .inputTooLarge => 2

/-- `digest_valid` (R33). -/
def State.digestValid (s : State) : Bool := decide (s.phase = .done) && decide (s.err = .none)

/-- The STATUS word, a pure function of the persistent state, from bit 15 down (R32). -/
def State.status (s : State) : BitVec 16 :=
  0#1 ++ s.pendingLen ++ 0#2 ++ BitVec.ofBool s.digestValid ++ BitVec.ofBool s.ovf ++ errCodeBits s.err ++ phaseCode s.phase

/-- The digest port: `V[0]` to `V[7]`, `V[0]` most significant (R24). It is the digest of the message only while
`digest_valid` is 1 (R33). -/
def State.digest (s : State) : BitVec 256 :=
  s.v[0] ++ s.v[1] ++ s.v[2] ++ s.v[3] ++ s.v[4] ++ s.v[5] ++ s.v[6] ++ s.v[7]

/-- Digest byte `k`, byte 0 first, as it lies on the digest port (R24). -/
def State.digestByte (s : State) (k : Fin 32) : Byte := s.digest.extractLsb' (248 - 8 * k.val) 8

/-- `cmd_ready` as it stands between commands: every command completes before the next moment at which the ports are
looked at (R6, R156, R163; log entry 9). -/
def State.cmdReady (_ : State) : Bool := true

end Sys2Proof.Machine
end

