-- ==== Sys2Proof/Machine/Ops.lean ====
section
/-! DEFINITION. The named operations over the pending buffer (20_memory.md), the unspecified values of the transient state
(10_state.md R34, R35), hardware reset (70_reset_and_hazards.md R150), and the lifecycle test every command shares
(40_commands_init_absorb.md R80). Taking a fault, `State.raiseFault`, stands in Machine/Flags.lean. -/

namespace Sys2Proof.Machine

/-! The pending buffer as a list of cells. -/

/-- What an unlisted address of `pending` reads as: 0x00. DESIGN CHOICE, unsafe: log entry 3. -/
def Memory.unlisted : Byte := 0x00#8

/-- Reading one byte. -/
def Memory.read : Memory → Nat → Byte
  | [], _ => Memory.unlisted
  | (x, y) :: m, a => if a = x then y else Memory.read m a

/-- Writing one byte, keeping the canonical form. -/
def Memory.write : Memory → Nat → Byte → Memory
  | [], a, b => if b = Memory.unlisted then [] else [(a, b)]
  | (x, y) :: m, a, b =>
    if a < x then (if b = Memory.unlisted then (x, y) :: m else (a, b) :: (x, y) :: m)
    else if a = x then (if b = Memory.unlisted then m else (a, b) :: m)
    else (x, y) :: Memory.write m a b

/-- The canonical form from address `lo` on: addresses rise strictly from `lo`, stay below 64, and no listed byte equals
what an unlisted address reads as. -/
def Memory.wfFrom : Nat → Memory → Bool
  | _, [] => true
  | lo, (x, y) :: m =>
    decide (lo ≤ x) && decide (x < Config.blockBytes) && decide (y ≠ Memory.unlisted) && Memory.wfFrom (x + 1) m

/-- The canonical form of the pending buffer. -/
def Memory.wf (m : Memory) : Bool := Memory.wfFrom 0 m

/-! The access primitives of R41 and R42. An address is one of 0..63 by its type, so no other request can be written. -/

/-- `MemRead(a, 1)` (R41). -/
def State.memRead1 (s : State) (a : Fin 64) : Byte := s.pending.read a.val

/-- `MemRead(4j, 4)`, big-endian (R41, R43); the only 4-byte reads made are at `4j`, `0 <= j <= 15`. -/
def State.memRead4 (s : State) (j : Fin 16) : Word :=
  be32 (s.pending.read (4 * j.val)) (s.pending.read (4 * j.val + 1))
    (s.pending.read (4 * j.val + 2)) (s.pending.read (4 * j.val + 3))

/-- `MemWrite(a, 1, b)` (R42). -/
def State.memWrite1 (s : State) (a : Fin 64) (b : Byte) : State := s.setPending (s.pending.write a.val b)

/-- `MemWrite(56, 8, x)`, big-endian (R42, R43); 56 is the only address at which an 8-byte write is made. -/
def State.memWrite8 (s : State) (x : BitVec 64) : State :=
  s.setPending ((List.finRange 8).foldl (fun m k => m.write (Config.lengthOffset + k.val) (bytes64 x k)) s.pending)

/-- The zero fill from `lo` up to but not including `hi`, ascending; `pending_len` does not move (R55(c)). -/
def State.fill (s : State) (lo hi : Nat) : State :=
  s.setPending ((List.finRange 64).foldl
    (fun m k => if lo ≤ k.val ∧ k.val < hi then m.write k.val 0x00#8 else m) s.pending)

/-- Storing a byte at `pending_len` and then adding 1 to it (R55(a)). There is no such store when `pending_len` exceeds
63: the buffer ends there (R40). -/
def State.storeNext (s : State) (b : Byte) : Option State :=
  if h : s.pendingLen.toNat < 64 then
    some ((s.memWrite1 ⟨s.pendingLen.toNat, h⟩ b).setPendingLen (s.pendingLen + 1))
  else none

/-- Storing a byte and going on, or stopping where the buffer ends (log entry 10). -/
def State.storeThen (s : State) (b : Byte) (body : State → Host.Outcome State Fault Refusal) :
    Host.Outcome State Fault Refusal :=
  match s.storeNext b with
  | some s' => body s'
  | none => .fault .pendingOutOfRange

/-- The 64 bytes of the buffer, as a compression takes them (R127). -/
def State.block (s : State) : Vector Byte 64 := Vector.ofFn fun a => s.memRead1 a

/-! Unspecified values. Drawing number `n` takes the words `149 n .. 149 n + 148`, the bytes `64 n .. 64 n + 63` and the
index `n` of the free values, so that no value is drawn twice. -/

/-- Word `k` of drawing `n`. -/
@[irreducible] def freeWord (n k : Nat) : Word := Config.freeWord (149 * n + k)

/-- The words from `k` on of drawing `n`, as many as asked for. -/
@[irreducible] def freeWords (n k size : Nat) : Vector Word size := Vector.ofFn fun i => freeWord n (k + i.val)

/-- The working registers of drawing `n`. -/
def freeWorking (n : Nat) : Working :=
  ⟨freeWord n 132, freeWord n 133, freeWord n 134, freeWord n 135,
   freeWord n 136, freeWord n 137, freeWord n 138, freeWord n 139⟩

/-- A pending buffer with a free value in every byte. -/
@[irreducible] def freePending (n : Nat) : Memory :=
  (List.finRange 64).foldl (fun m k => Memory.write m k.val (Config.freeByte (64 * n + k.val))) []

/-- The transient state with no value that the spec gives: every element holds a free value (R34, R35, R37). Log entry 6. -/
def State.forgetTransient (s : State) : State :=
  { s with
    w := freeWords s.draws 0 68
    wp := freeWords s.draws 68 64
    work := freeWorking s.draws
    t := freeWord s.draws 140
    j := Config.freeIndex s.draws
    draws := s.draws + 1 }

/-- Hardware reset of a running engine (R37, R150): the fields the spec gives take their reset values; `V`, `pending` and
the transient state are unspecified and hold free values (log entry 5). It is not INIT: it does not load IV. -/
def State.hardwareReset (s : State) : State :=
  { s.forgetTransient with
    v := freeWords s.draws 141 8
    pending := freePending s.draws
    pendingLen := 0
    totalBits := 0
    ovf := false
    err := .none
    phase := .idle }

/-! The lifecycle test. -/

/-- Step (2) of R80: outside phase ACTIVE the command raises SEQ_ERROR and nothing else changes (R131); in phase ACTIVE its
own rule applies. -/
def State.whenActive (s : State) (body : State → Host.Outcome State Fault Refusal) : Host.Outcome State Fault Refusal :=
  if s.phase = .active then body s else .next (s.raiseFault .seqError)

end Sys2Proof.Machine
end

