-- ==== Sys2Proof/Machine/Expansion.lean ====
section
/-! DEFINITION. Message expansion (42_message_expansion.md): the micro-operations LDW, XPW and XPP. Each sets the transient
index `j` to its operand (10_state.md R25, R35; log entry 12). -/

namespace Sys2Proof.Machine

/-- `LDW j`: load a message word (R101). -/
def ldw (j : Fin 16) (s : State) : State :=
  (s.setW (s.w.set j.val (s.memRead4 j))).setJ (j.castLE (by decide))

/-- The recurrence of the schedule, from the five words it reads: `W[j-16]`, `W[j-13]`, `W[j-9]`, `W[j-6]`, `W[j-3]` (R102). -/
def extendWord (w16 w13 w9 w6 w3 : Word) : Word :=
  p1 (w16 ^^^ w9 ^^^ rotl w3 15) ^^^ rotl w13 7 ^^^ w6

/-- `XPW (k + 16)`, `k` from 0 to 51: extend the schedule `W` (R102). The operand is given less 16, so that every index
lies in the schedule by its type. -/
def xpw (k : Fin 52) (s : State) : State :=
  (s.setW (s.w.set (k.val + 16)
    (extendWord s.w[k.val] s.w[k.val + 3] s.w[k.val + 7] s.w[k.val + 10] s.w[k.val + 13]))).setJ
      ⟨k.val + 16, by omega⟩

/-- `XPP j`: derive the schedule `WP` (R103). -/
def xpp (j : Fin 64) (s : State) : State :=
  (s.setWp (s.wp.set j.val (s.w[j.val] ^^^ s.w[j.val + 4]))).setJ (j.castLE (by decide))

end Sys2Proof.Machine
end

