-- ==== Sys2Proof/Machine/Rounds.lean ====
section
/-! DEFINITION. The compression rounds and the state update (43_compression_rounds.md): the round constant, the Boolean
functions, one round, and the micro-operations LDV, RND and FBK. -/

namespace Sys2Proof.Machine

/-- The constant of round `j`, the closed form (R112). -/
def roundConst (j : Nat) : Word :=
  if j < Config.switchRound then rotl Config.baseLow (j % 32) else rotl Config.baseHigh (j % 32)

/-- The running form of the constant, an allowed implementation of the same sequence (R113): the value `T` holds in round
`j`, one rotation a round, set anew before round 16. -/
def runningConst : Nat → Word
  | 0 => Config.baseLow
  | j + 1 => if j + 1 = Config.switchRound then 0x9d8a7a87#32 else rotl (runningConst j) 1

/-- `FFj` (R114). -/
def ff (j : Nat) (x y z : Word) : Word :=
  if j < Config.switchRound then x ^^^ y ^^^ z else (x &&& y) ||| (x &&& z) ||| (y &&& z)

/-- `GGj` (R115). -/
def gg (j : Nat) (x y z : Word) : Word :=
  if j < Config.switchRound then x ^^^ y ^^^ z else (x &&& y) ||| (~~~x &&& z)

/-- `SS1` of round `j` (R116). -/
def ss1 (j : Nat) (r : Working) : Word := rotl (rotl r.a 12 + r.e + roundConst j) 7

/-- `SS2` of round `j` (R116). -/
def ss2 (j : Nat) (r : Working) : Word := ss1 j r ^^^ rotl r.a 12

/-- `TT1` of round `j`, which takes `WP[j]` (R117). -/
def tt1 (j : Nat) (wpj : Word) (r : Working) : Word := ff j r.a r.b r.c + r.d + ss2 j r + wpj

/-- `TT2` of round `j`, which takes `W[j]` (R117). -/
def tt2 (j : Nat) (wj : Word) (r : Working) : Word := gg j r.e r.f r.g + r.h + ss1 j r + wj

/-- One round on the working registers, all eight written in parallel (R118). -/
def round (j : Nat) (wj wpj : Word) (r : Working) : Working where
  a := tt1 j wpj r
  b := r.a
  c := rotl r.b 9
  d := r.c
  e := p0 (tt2 j wj r)
  f := r.e
  g := rotl r.f 19
  h := r.g

/-- The working registers loaded from the register bank (R21, R111). -/
def loadWorking (v : Vector Word 8) : Working := ⟨v[0], v[1], v[2], v[3], v[4], v[5], v[6], v[7]⟩

/-- The register bank after the feedback: XOR, not addition (R119). -/
def feedback (v : Vector Word 8) (r : Working) : Vector Word 8 :=
  #v[v[0] ^^^ r.a, v[1] ^^^ r.b, v[2] ^^^ r.c, v[3] ^^^ r.d, v[4] ^^^ r.e, v[5] ^^^ r.f, v[6] ^^^ r.g, v[7] ^^^ r.h]

/-- `LDV`: load the working registers (R111). -/
def ldv (s : State) : State := s.setWork (loadWorking s.v)

/-- `RND j`: one round (R118). `T` holds the constant the round used (R35; log entry 12). -/
def rnd (j : Fin 64) (s : State) : State :=
  ((s.setWork (round j.val s.w[j.val] s.wp[j.val] s.work)).setT (roundConst j.val)).setJ (j.castLE (by decide))

/-- `FBK`: the state update, the only write of `V` outside INIT (R23, R119). -/
def fbk (s : State) : State := s.setV (feedback s.v s.work)

end Sys2Proof.Machine
end

