-- ==== Sys2Proof/Machine/Compress.lean ====
section
/-! DEFINITION. The per-block step: the six kinds of micro-operation, the reference order of the 198 of them, `COMPRESS`
(43_compression_rounds.md R125), and the compression function `CF` as a function of the register bank and the block
alone (R127), written without the transient state. -/

namespace Sys2Proof.Machine

/-- A micro-operation. It has no encoding and the host cannot issue it (R65). -/
inductive MicroOp where
  /-- `LDW j` (R101). -/
  | ldw (j : Fin 16)
  /-- `XPW (k + 16)` (R102). -/
  | xpw (k : Fin 52)
  /-- `XPP j` (R103). -/
  | xpp (j : Fin 64)
  /-- `LDV` (R111). -/
  | ldv
  /-- `RND j` (R118). -/
  | rnd (j : Fin 64)
  /-- `FBK` (R119). -/
  | fbk
deriving DecidableEq, Repr

/-- What one micro-operation does. -/
def execMicro : MicroOp → State → State
  | .ldw j, s => Sys2Proof.Machine.ldw j s
  | .xpw k, s => Sys2Proof.Machine.xpw k s
  | .xpp j, s => Sys2Proof.Machine.xpp j s
  | .ldv, s => Sys2Proof.Machine.ldv s
  | .rnd j, s => Sys2Proof.Machine.rnd j s
  | .fbk, s => Sys2Proof.Machine.fbk s

/-- The micro-operations of `EXPAND`, in the reference order (R100). -/
def expandOps : List MicroOp :=
  (List.finRange 16).map .ldw ++ (List.finRange 52).map .xpw ++ (List.finRange 64).map .xpp

/-- The micro-operations of a compression, in the reference order; the list's index is the position (R125). -/
def compressOps : List MicroOp :=
  expandOps ++ [.ldv] ++ (List.finRange 64).map .rnd ++ [.fbk]

/-- A sequence of micro-operations. -/
def runMicro (ops : List MicroOp) (s : State) : State := ops.foldl (fun s op => execMicro op s) s

/-- `COMPRESS()` (R125). It cannot fail (R126). When its last micro-operation is done the transient state has no value the
spec gives (R34, R35; log entry 6). -/
def State.compress (s : State) : State := (runMicro compressOps s).forgetTransient

/-! The compression function. -/

/-- The first 16 words of the schedule, straight from the block (R101). -/
def loadedWords (block : Vector Byte 64) : List Word :=
  (List.finRange 16).map fun j =>
    be32 block[4 * j.val] block[4 * j.val + 1] block[4 * j.val + 2] block[4 * j.val + 3]

/-- The schedule `W[0..15+n]`, each word from those before it (R102). -/
def scheduleW (block : Vector Byte 64) : Nat → List Word
  | 0 => loadedWords block
  | n + 1 =>
    let w := scheduleW block n
    w ++ [extendWord (w.getD n 0) (w.getD (n + 3) 0) (w.getD (n + 7) 0) (w.getD (n + 10) 0) (w.getD (n + 13) 0)]

/-- The working registers after rounds `0 .. n-1` (R110, R118); `WP[j] = W[j] XOR W[j+4]` (R103). -/
def roundsUpTo (w : List Word) (r : Working) : Nat → Working
  | 0 => r
  | n + 1 => round n (w.getD n 0) (w.getD n 0 ^^^ w.getD (n + 4) 0) (roundsUpTo w r n)

/-- `CF(v, block)`: the value of `V` after a compression started with `V = v` and `pending = block` (R127). -/
def cf (v : Vector Word 8) (block : Vector Byte 64) : Vector Word 8 :=
  feedback v (roundsUpTo (scheduleW block 52) (loadWorking v) 64)

end Sys2Proof.Machine
end

