-- ==== Sys2Proof/Machine/Absorb.lean ====
section
/-! DEFINITION. The command ABSORB: the absorption state machine (40_commands_init_absorb.md R83). -/

namespace Sys2Proof.Machine

/-- What follows a stored byte: when the buffer is full, compress, count 512 bits, start an empty buffer (R83). -/
def State.absorbBlockIfFull (s : State) : State :=
  if s.pendingLen = 64#7 then (s.compress.countBits Config.blockBits).setPendingLen 0 else s

/-- ABSORB of one byte (R80, R83). -/
def execAbsorb (b : Byte) (s : State) : Host.Outcome State Fault Refusal :=
  s.whenActive fun s => s.storeThen b fun s => .next s.absorbBlockIfFull

end Sys2Proof.Machine
end

