-- ==== Sys2Proof/Machine/Finalize.lean ====
section
/-! DEFINITION. The command FINALIZE: padding, length encoding, digest (41_finalize_padding.md R90). -/

namespace Sys2Proof.Machine

/-- Step 1: add the bits of the valid tail to the bit counter (R90). -/
def State.countTail (s : State) : State := s.countBits (8 * s.pendingLen.toNat)

/-- Step 3: when the count after the marker exceeds 56, zero-fill to the end of the block, compress, and start an empty
buffer (R90). -/
def State.padFirstBlock (s : State) : State :=
  if Config.lengthOffset < s.pendingLen.toNat then
    ((s.fill s.pendingLen.toNat 64).compress).setPendingLen 0
  else s

/-- Steps 4 to 7: zero-fill to offset 56, write the length field, compress, and consume the state (R90). -/
def State.padLastBlock (s : State) : State :=
  ((((s.fill s.pendingLen.toNat Config.lengthOffset).memWrite8 (lengthField s.totalBits)).compress).setPendingLen 0).setPhase
    .done

/-- FINALIZE (R80, R90): the phase test, step 1, the overflow test (R132, R135), then steps 2 to 7. -/
def execFinalize (s : State) : Host.Outcome State Fault Refusal :=
  s.whenActive fun s =>
    if s.countTail.ovf then .next ((s.countTail.setPhase .done).raiseFault .inputTooLarge)
    else s.countTail.storeThen Config.marker fun s => .next s.padFirstBlock.padLastBlock

end Sys2Proof.Machine
end

