-- ==== Sys2Proof/Machine/Lifecycle.lean ====
section
/-! DEFINITION. The commands NOP and INIT (40_commands_init_absorb.md R81, R82), legal in every phase. -/

namespace Sys2Proof.Machine

/-- NOP: nothing, in any phase, whatever `err` holds (R81). -/
def execNop (s : State) : Host.Outcome State Fault Refusal := .next s

/-- A fresh digest state: IV in the register bank, the buffer zero, the counters and flags clear, phase ACTIVE; the
transient state is left as it was (R82). -/
def State.initialise (s : State) : State :=
  ((((((s.setV Config.iv).fill 0 64).setPendingLen 0).setTotalBits 0).setOvf false).setErr .none).setPhase .active

/-- INIT: a fresh digest state, whatever the phase and whatever `err` holds (R82). -/
def execInit (s : State) : Host.Outcome State Fault Refusal := .next s.initialise

end Sys2Proof.Machine
end

