-- ==== Sys2Proof/Machine/Ports.lean ====
section
/-! DEFINITION. The input ports (30_encoding.md R60): what one moment at the ports amounts to, and taking the next one. -/

namespace Sys2Proof.Machine

/-- What the ports ask of the engine at one moment. -/
inductive PortEvent where
  /-- `rst` is asserted: hardware reset, which overrides everything (R135, R150). -/
  | reset
  /-- A command is issued: `cmd_valid` and `cmd_ready` are both 1, and the word is captured whole (R60). -/
  | issue (w : CmdWord)
  /-- No command is issued. -/
  | quiet
deriving DecidableEq, Repr

/-- The event of a port sample (R60, R135, R150). -/
def portEvent (p : PortSample) (ready : Bool) : PortEvent :=
  if p.rst then .reset else if p.cmdValid && ready then .issue p.cmd else .quiet

/-- The event of the next moment, and the state with that moment taken. A host that has nothing further to drive leaves
the engine waiting (log entry 8). -/
def State.takeEvent (s : State) : PortEvent × State :=
  match s.inputs with
  | [] => (.quiet, s)
  | p :: rest => (portEvent p s.cmdReady, s.setInputs rest)

/-- A sample that offers a command word. -/
def offer (w : CmdWord) : PortSample := ⟨false, true, w⟩

/-- The state with a command word, given as a number, offered at the next moment; a number that does not fit the port
offers nothing (R61). -/
def State.offerNext (s : State) (w : Nat) : State :=
  if wordFits w then s.setInputs (offer (BitVec.ofNat 10 w) :: s.inputs) else s

end Sys2Proof.Machine
end

