-- ==== Sys2Proof/Machine/Step.lean ====
section
/-! DEFINITION. One step of the engine: the next moment at the input ports, and what it asks for (00_scope.md R6, R60,
R150). Every command is one indivisible step (R156). -/

namespace Sys2Proof.Machine

/-- One step: hardware reset, the issued command, or waiting. -/
def step (s : State) : Host.Outcome State Fault Refusal :=
  match s.takeEvent with
  | (.reset, s') => .next s'.hardwareReset
  | (.issue w, s') => exec (decode w) s'
  | (.quiet, s') => .next s'

/-- The state with a command of the opcode table offered at the next moment, so that the very next step runs it: the
engine fetches nothing, commands arrive by value (R25, R53; log entry 8). -/
def State.withFetchWord (s : State) (nbits w : Nat) : State := s.offerNext (w % 2 ^ nbits)

end Sys2Proof.Machine
end

