-- ==== Sys2Proof/Machine/Script.lean ====
section
/-! DEFINITION. The command script (30_encoding.md R66) and its pseudo-commands (R67): the lines as data, what a line stands
for, and reading a line's text. The reading conventions the spec does not state (blanks, hex letters of either case,
several strings or bytes after HASH) are log entry 17. -/

namespace Sys2Proof.Machine

/-- A line of a command script, its operands as written (R66, R67). -/
inductive ScriptLine where
  | nop
  | init
  /-- `ABSORB <byte>`. -/
  | absorb (n : Nat)
  | finalize
  /-- `ABSORBN b0 ... b(n-1)`. -/
  | absorbN (ns : List Nat)
  /-- `ABSORBS "text"`. -/
  | absorbS (text : List Char)
  /-- `HASH b0 ... b(n-1)`. -/
  | hash (ns : List Nat)
deriving DecidableEq, Repr

/-- A line is well formed when its byte operands are 0..255 and its text is ASCII (R63, R66, R67). -/
def ScriptLine.wellFormed : ScriptLine → Bool
  | .nop => true
  | .init => true
  | .absorb n => byteFits n
  | .finalize => true
  | .absorbN ns => ns.all byteFits
  | .absorbS text => text.all charFits
  | .hash ns => ns.all byteFits

/-- `ABSORBN`: one ABSORB for each byte, in order; nothing for no byte (R67). -/
def absorbBytes (bs : List Byte) : List Instr := bs.map .absorb

/-- `HASH`: INIT, the bytes, FINALIZE (R67). -/
def hashCommands (bs : List Byte) : List Instr := .init :: (absorbBytes bs ++ [.finalize])

/-- The commands a line stands for (R66, R67). -/
def ScriptLine.expand : ScriptLine → List Instr
  | .nop => [.nop]
  | .init => [.init]
  | .absorb n => [.absorb (BitVec.ofNat 8 n)]
  | .finalize => [.finalize]
  | .absorbN ns => absorbBytes (ns.map (BitVec.ofNat 8))
  | .absorbS text => absorbBytes (text.map fun c => BitVec.ofNat 8 c.toNat)
  | .hash ns => hashCommands (ns.map (BitVec.ofNat 8))

/-- Why a line cannot be read. -/
inductive ScriptError where
  /-- The first word is no mnemonic of R66 or R67 (mnemonics are upper case). -/
  | unknownMnemonic
  /-- An operand is no byte and no text, or there are too many or too few. -/
  | badOperand
  /-- A byte operand exceeds 255, or the text of ABSORBS holds a character with no ASCII code. -/
  | operandOutOfRange
deriving DecidableEq, Repr

/-- Where in a line the reader stands: outside quotes, after an opening single quote, after the character it quotes, or
inside a quoted text. -/
inductive QuoteState where
  | plain
  | charOpen
  | charSeen
  | inText
deriving DecidableEq, Repr

/-- A word that has been gathered, unless it is empty; `cur` holds it last character first. -/
def flushWord (cur : List Char) (rest : List (List Char)) : List (List Char) :=
  if cur = [] then rest else cur.reverse :: rest

/-- The words of a line: parted by blanks, ended by `;` outside quotes (R66). -/
def lineWords : QuoteState → List Char → List Char → List (List Char)
  | _, cur, [] => flushWord cur []
  | .plain, cur, c :: cs =>
    if c = ';' then flushWord cur []
    else if c = ' ' ∨ c = '\t' then flushWord cur (lineWords .plain [] cs)
    else if c = '\'' then lineWords .charOpen (c :: cur) cs
    else if c = '"' then lineWords .inText (c :: cur) cs
    else lineWords .plain (c :: cur) cs
  | .charOpen, cur, c :: cs => lineWords .charSeen (c :: cur) cs
  | .charSeen, cur, c :: cs => lineWords .plain (c :: cur) cs
  | .inText, cur, c :: cs => lineWords (if c = '"' then .plain else .inText) (c :: cur) cs

/-- The value of a digit of a base up to 16. -/
def digitValue (base : Nat) (c : Char) : Option Nat :=
  let v :=
    if '0' ≤ c ∧ c ≤ '9' then some (c.toNat - 48)
    else if 'a' ≤ c ∧ c ≤ 'f' then some (c.toNat - 87)
    else if 'A' ≤ c ∧ c ≤ 'F' then some (c.toNat - 55)
    else none
  v.bind fun d => if d < base then some d else none

/-- The number a run of digits stands for, from the number read so far. -/
def readDigits (base acc : Nat) : List Char → Option Nat
  | [] => some acc
  | c :: cs => (digitValue base c).bind fun d => readDigits base (acc * base + d) cs

/-- A byte operand: `0x` hex, decimal, or a quoted character (R66). Not checked against 255 here. -/
def readByte : List Char → Option Nat
  | ['\'', c, '\''] => if charFits c then some c.toNat else none
  | '0' :: 'x' :: d :: ds => readDigits 16 0 (d :: ds)
  | d :: ds => readDigits 10 0 (d :: ds)
  | [] => none

/-- A text operand: the characters between the first and the last double quote of the word (R67). DESIGN CHOICE, the spec
says nothing of a double quote inside a text: one that stands there is a character of the text like any other, 0x22; log
entry 17. -/
def readText : List Char → Option (List Char)
  | '"' :: cs => if cs.getLast? = some '"' then some cs.dropLast else none
  | _ => none

/-- An operand of HASH: a byte (R67), or a text standing for its ASCII codes. DESIGN CHOICE, R67 gives HASH bytes only: a
text is allowed too, and one that holds a character with no ASCII code is no operand, as for ABSORBS; log entry 17. -/
def readHashOperand (w : List Char) : Option (List Nat) :=
  match readText w with
  | some text => if text.all charFits then some (text.map Char.toNat) else none
  | none => (readByte w).map ([·])

/-- The line that a list of words spells, operands not yet checked for range (R66, R67). -/
def lineOfWords : List (List Char) → Except ScriptError (Option ScriptLine)
  | [] => .ok none
  | m :: ops =>
    if m = "NOP".toList then (if ops = [] then .ok (some .nop) else .error .badOperand)
    else if m = "INIT".toList then (if ops = [] then .ok (some .init) else .error .badOperand)
    else if m = "FINALIZE".toList then (if ops = [] then .ok (some .finalize) else .error .badOperand)
    else if m = "ABSORB".toList then
      match ops with
      | [w] => (match readByte w with | some n => .ok (some (.absorb n)) | none => .error .badOperand)
      | _ => .error .badOperand
    else if m = "ABSORBN".toList then
      (match ops.mapM readByte with | some ns => .ok (some (.absorbN ns)) | none => .error .badOperand)
    else if m = "ABSORBS".toList then
      match ops with
      | [w] => (match readText w with | some text => .ok (some (.absorbS text)) | none => .error .badOperand)
      | _ => .error .badOperand
    else if m = "HASH".toList then
      (match ops.mapM readHashOperand with
      | some parts => .ok (some (.hash parts.flatten))
      | none => .error .badOperand)
    else .error .unknownMnemonic

/-- The commands a line of text stands for; a blank or comment line stands for none. -/
def assembleLine (text : List Char) : Except ScriptError (List Instr) :=
  match lineOfWords (lineWords .plain [] text) with
  | .ok none => .ok []
  | .ok (some l) => if l.wellFormed then .ok l.expand else .error .operandOutOfRange
  | .error e => .error e

/-- The commands a script stands for, one command a line (R66), stopping at the first line that cannot be read. -/
def assemble : List (List Char) → Except ScriptError (List Instr)
  | [] => .ok []
  | l :: ls =>
    match assembleLine l with
    | .error e => .error e
    | .ok is => (assemble ls).map (is ++ ·)

/-- The hex digit of a number below 16. -/
def hexDigit (n : Nat) : Char := if n < 10 then Char.ofNat (48 + n) else Char.ofNat (87 + n)

/-- The texts of a byte operand (R66): hex, decimal, and for an ASCII code the quoted character. -/
def byteTexts (b : Byte) : List (List Char) :=
  ['0', 'x', hexDigit (b.toNat / 16), hexDigit (b.toNat % 16)] :: Nat.toDigits 10 b.toNat ::
    (if b.toNat < 128 then [['\'', Char.ofNat b.toNat, '\'']] else [])

/-- The text of a command (R66); ABSORB's byte in hex. -/
def Instr.scriptText : Instr → List Char
  | .nop => "NOP".toList
  | .init => "INIT".toList
  | .absorb b => "ABSORB 0x".toList ++ [hexDigit (b.toNat / 16), hexDigit (b.toNat % 16)]
  | .finalize => "FINALIZE".toList

end Sys2Proof.Machine
end

