-- ==== Sys2Proof/Safety.lean ====
section
/-! DEFINITION. The terms claims are stated in: running a sequence of commands, the invariant of every reachable state
(10_state.md R36), the end of a run (70_reset_and_hazards.md R159), the padded message and the chain of compressions
(41_finalize_padding.md R91, R95), what two states may differ in without anyone seeing it (20_memory.md R48, R151), and
the dependences between micro-operations (42_message_expansion.md R104). -/

namespace Sys2Proof.Machine

/-- A sequence of commands, each to completion, stopping at the first that gives no next state (R50). -/
def runInstrs : List Instr → State → Host.Outcome State Fault Refusal
  | [], s => .next s
  | i :: is, s =>
    match exec i s with
    | .next s' => runInstrs is s'
    | .fault r => .fault r
    | .refused r => .refused r

/-- What holds of every state reachable from reset (R26, R30, R36(a) to (c), and the form of the pending buffer). That
`phase` and `err` are 0, 1 or 2 is in their types. -/
structure State.Inv (s : State) : Prop where
  /-- The pending buffer is in canonical form. -/
  memory : Memory.wf s.pending = true
  /-- R36(a). -/
  fillCount : s.pendingLen.toNat ≤ 63
  /-- R36(b). -/
  activeNoErr : s.phase = .active → s.err = .none
  /-- R36(c). -/
  tooLargeDone : s.err = .inputTooLarge → s.phase = .done ∧ s.ovf = true
  /-- R36(d): whole blocks only are counted while a message is open. -/
  activeWholeBlocks : s.phase = .active → s.totalBits.toNat % 512 = 0
  /-- Before the first INIT nothing has been absorbed or counted (R37, R151). -/
  idleClean : s.phase = .idle → s.pendingLen = 0 ∧ s.totalBits = 0 ∧ s.ovf = false
  /-- A consumed state that overflowed has recorded it (R90, R132, R133). -/
  doneOvf : s.phase = .done → s.ovf = true → s.err = .inputTooLarge
  /-- A consumed state that did not overflow has an empty buffer (R90). -/
  doneEmpty : s.phase = .done → s.ovf = false → s.pendingLen = 0

/-- A good end of a run (R159). -/
def State.goodEnd (s : State) : Bool := decide (s.phase = .done) && decide (s.err = .none)

/-- A faulted end of a run (R159). -/
def State.faultedEnd (s : State) : Bool := decide (s.phase = .done) && decide (s.err = .inputTooLarge)

/-! The padded message. -/

/-- The padded message: the marker, `(55 - n) mod 64` zero bytes, and the bit length in eight big-endian bytes (R95). -/
def padMessage (m : List Byte) : List Byte :=
  m ++ [0x80#8] ++ List.replicate ((55 - (m.length : Int)) % 64).toNat 0x00#8
    ++ (List.finRange 8).map (bytes64 (BitVec.ofNat 64 (8 * m.length)))

/-- Block `i` of a byte sequence, the bytes from `64 i` on (R95). -/
def blockAt (m : List Byte) (i : Nat) : Vector Byte 64 := Vector.ofFn fun k => m.getD (64 * i + k.val) 0

/-- The chaining value after the first `q` blocks of a byte sequence (R85, R95). -/
def chain (v : Vector Word 8) (m : List Byte) : Nat → Vector Word 8
  | 0 => v
  | q + 1 => cf (chain v m q) (blockAt m q)

/-- The one block FINALIZE compresses when `L <= 55` bytes are pending (R91). -/
def onlyPadBlock (tail : Vector Byte 64) (L : Nat) (len : Word) : Vector Byte 64 :=
  Vector.ofFn fun a =>
    if a.val < L then tail[a.val]
    else if a.val = L then 0x80#8
    else if h : 60 ≤ a.val then bytes32 len ⟨a.val - 60, by omega⟩
    else 0x00#8

/-- The first of the two blocks FINALIZE compresses when `56 <= L <= 63` bytes are pending (R91). -/
def firstPadBlock (tail : Vector Byte 64) (L : Nat) : Vector Byte 64 :=
  Vector.ofFn fun a => if a.val < L then tail[a.val] else if a.val = L then 0x80#8 else 0x00#8

/-- The second of the two blocks (R91). -/
def secondPadBlock (len : Word) : Vector Byte 64 :=
  Vector.ofFn fun a => if h : 60 ≤ a.val then bytes32 len ⟨a.val - 60, by omega⟩ else 0x00#8

/-! What two states may differ in. -/

/-- The two states differ at most in what is unspecified or stale: the transient elements, the bytes of `pending` at or
beyond `pending_len`, all of `pending` outside phase ACTIVE, and `V` in phase IDLE (R48, R150, R151). -/
structure SameSpecified (s s' : State) : Prop where
  v : s.phase ≠ .idle → s.v = s'.v
  pending : s.phase = .active → ∀ a, a < s.pendingLen.toNat → s.pending.read a = s'.pending.read a
  wf : Memory.wf s.pending = true
  wf' : Memory.wf s'.pending = true
  pendingLen : s.pendingLen = s'.pendingLen
  totalBits : s.totalBits = s'.totalBits
  ovf : s.ovf = s'.ovf
  err : s.err = s'.err
  phase : s.phase = s'.phase
  inputs : s.inputs = s'.inputs
  draws : s.draws = s'.draws

/-- Two outcomes correspond: both go on, in related states, or both stop for the same reason. -/
def OutcomeRel (R : State → State → Prop) : Host.Outcome State Fault Refusal → Host.Outcome State Fault Refusal → Prop
  | .next s, .next s' => R s s'
  | .fault r, .fault r' => r = r'
  | .refused r, .refused r' => r = r'
  | _, _ => False

/-- The two states agree on everything that steers the engine (R86). -/
def SameControl (s s' : State) : Prop :=
  s.pendingLen = s'.pendingLen ∧ s.totalBits = s'.totalBits ∧ s.ovf = s'.ovf ∧ s.err = s'.err ∧ s.phase = s'.phase

/-! The dependences between micro-operations. -/

/-- The elements a micro-operation reads or writes. -/
inductive Element where
  | pending
  | w (i : Nat)
  | wp (i : Nat)
  | working
  | v
deriving DecidableEq, Repr

/-- What a micro-operation reads (R101, R102, R103, R111, R118, R119). -/
def MicroOp.reads : MicroOp → List Element
  | .ldw _ => [.pending]
  | .xpw k => [.w k.val, .w (k.val + 3), .w (k.val + 7), .w (k.val + 10), .w (k.val + 13)]
  | .xpp j => [.w j.val, .w (j.val + 4)]
  | .ldv => [.v]
  | .rnd j => [.working, .w j.val, .wp j.val]
  | .fbk => [.v, .working]

/-- What a micro-operation writes (R101, R102, R103, R111, R118, R119). -/
def MicroOp.writes : MicroOp → List Element
  | .ldw j => [.w j.val]
  | .xpw k => [.w (k.val + 16)]
  | .xpp j => [.wp j.val]
  | .ldv => [.working]
  | .rnd _ => [.working]
  | .fbk => [.v]

/-- Neither writes what the other reads or writes. -/
def MicroOp.independent (a b : MicroOp) : Bool :=
  a.writes.all (fun e => decide (e ∉ b.reads) && decide (e ∉ b.writes)) && b.writes.all (fun e => decide (e ∉ a.reads))

/-- A schedule of the 198 micro-operations that keeps the order of every dependent pair (R104). -/
def RespectsDependences (l : List MicroOp) : Prop :=
  l.Perm compressOps ∧
    ∀ a b, MicroOp.independent a b = false → [a, b].Sublist compressOps → [a, b].Sublist l

end Sys2Proof.Machine
end

