-- ==== Sys2Proof/Certificates/Slice0/Obligations.lean ====
section
/-! DEFINITION. The statements about the model, in the order of OBLIGATIONS.json. -/

open Sys2Proof Sys2Proof.Machine

/-! Encoding. -/

/-- R62: every command word selects exactly one row of the opcode table, the row of the command it decodes to; the table's
rows and canonical words are those R62 prints. -/
def Obligations.EveryWordSelectsExactlyOneRow : Prop :=
  (∀ w : CmdWord, ∃ r ∈ opcodeRows, r.selectedBy w = true ∧ r.mnemonic = (decode w).mnemonic ∧
    ∀ r' ∈ opcodeRows, r'.selectedBy w = true → r' = r) ∧
  opcodeRows.map (fun r => (r.mnemonic, r.pattern, r.mask)) =
    [("NOP", 0x000#10, 0x300#10), ("INIT", 0x100#10, 0x300#10), ("ABSORB", 0x200#10, 0x300#10),
     ("FINALIZE", 0x300#10, 0x300#10)] ∧
  encode .nop = 0x000#10 ∧ encode .init = 0x100#10 ∧ encode .finalize = 0x300#10 ∧
  ∀ b : Byte, (encode (.absorb b)).toNat = 0x200 + b.toNat

/-- R62, R63, R64: decoding undoes encoding, on every command; encoding undoes decoding up to the ignored `data` bits;
and the decoder of numbers accepts exactly the numbers of 10 bits. The third clause, and the form of `decodeTableWord` in
the first, are the model's choice (DESIGN CHOICE, log entry 14): the spec speaks of 10-bit words only. -/
def Obligations.DecodeAndEncodeAgree : Prop :=
  (∀ i : Instr, i.wellFormed = true →
    decode (encode i) = i ∧ decodeTableWord 16 (encode i).toNat = some i) ∧
  (∀ w : CmdWord, encode (decode w) = if opField w = 0b10#2 then w else w &&& 0x300#10) ∧
  (∀ w : Nat, decodeNat w = if w < 1024 then .ok (decode (BitVec.ofNat 10 w)) else .error .wordTooWide)

/-- Words of the spec's own examples (R62, R64, R66, 95_test_vectors.md S1 and S4), bits written out, and the commands they
stand for. -/
def Obligations.SpecWordsDecode : Prop :=
  decode 0b0000000000#10 = .nop ∧ decode 0b0001010101#10 = .nop ∧ decode 0b0100000000#10 = .init ∧
  decode 0b0111111111#10 = .init ∧ decode 0b1001100001#10 = .absorb 0x61#8 ∧
  decode 0b1010000000#10 = .absorb 0x80#8 ∧ decode 0b1100000000#10 = .finalize ∧ decode 0b1110101010#10 = .finalize

/-- R64: two words with the same operation code, not ABSORB's, are the same command whatever their `data` bits; R63: with
ABSORB's operation code the operand is `cmd[7:0]`. -/
def Obligations.DataBitsMatterToAbsorbOnly : Prop :=
  (∀ w w' : CmdWord, opField w = opField w' → opField w ≠ 0b10#2 → decode w = decode w') ∧
  ∀ w : CmdWord, opField w = 0b10#2 → ∃ b : Byte, decode w = .absorb b ∧ ∀ n, n < 8 → b.getLsbD n = w.getLsbD n

/-- R66: assembling the text of a command gives that command, with ABSORB's byte in hex, in decimal, or as a quoted ASCII
character, and with a comment after it; a line that is all comment gives no command; and a script of command texts gives
the commands in order. That no blank is needed before the comment is the model's choice (log entry 17). -/
def Obligations.AssemblerReadsCommandText : Prop :=
  (∀ i : Instr, assembleLine (Instr.scriptText i) = .ok [i]) ∧
  (∀ (b : Byte) (t : List Char), t ∈ byteTexts b → assembleLine ("ABSORB ".toList ++ t) = .ok [.absorb b]) ∧
  (∀ (i : Instr) (c : List Char), assembleLine (Instr.scriptText i ++ ';' :: c) = .ok [i] ∧
    assembleLine (Instr.scriptText i ++ ' ' :: ';' :: c) = .ok [i] ∧ assembleLine (';' :: c) = .ok []) ∧
  (∀ (b : Byte) (t c : List Char), t ∈ byteTexts b →
    assembleLine ("ABSORB ".toList ++ t ++ ' ' :: ';' :: c) = .ok [.absorb b]) ∧
  ∀ l : List Instr, assemble (l.map Instr.scriptText) = .ok l

/-- R67: the expansions of the pseudo-commands. -/
def Obligations.PseudoCommandExpansions : Prop :=
  (∀ ns : List Nat, (ScriptLine.absorbN ns).wellFormed = true →
    (ScriptLine.absorbN ns).expand = ns.map (fun n => Instr.absorb (BitVec.ofNat 8 n))) ∧
  (∀ cs : List Char, (ScriptLine.absorbS cs).expand = (ScriptLine.absorbN (cs.map Char.toNat)).expand) ∧
  ∀ ns : List Nat, (ScriptLine.hash ns).expand =
    (ScriptLine.init).expand ++ (ScriptLine.absorbN ns).expand ++ (ScriptLine.finalize).expand

/-! The step. -/

/-- R60, R80: when the next moment at the ports offers a command and does not assert reset, the step is the meaning of the
command the word decodes to, on the state with that moment taken. -/
def Obligations.StepRunsTheIssuedCommand : Prop :=
  ∀ (s : State) (p : PortSample) (rest : List PortSample),
    s.inputs = p :: rest → p.rst = false → p.cmdValid = true →
      step s = exec (decode p.cmd) { s with inputs := rest }

/-- R60: when no command is offered and reset is not asserted, nothing changes but the moment taken. -/
def Obligations.StepWaitsWithoutACommand : Prop :=
  (∀ s : State, s.inputs = [] → step s = .next s) ∧
  ∀ (s : State) (p : PortSample) (rest : List PortSample),
    s.inputs = p :: rest → p.rst = false → p.cmdValid = false → step s = .next { s with inputs := rest }

/-- R135, R150: reset overrides whatever is offered, in every state, and leaves the values the spec gives; that the input
queue is the model's own is log entry 8. -/
def Obligations.HardwareResetOverridesEverything : Prop :=
  ∀ (s : State) (p : PortSample) (rest : List PortSample), s.inputs = p :: rest → p.rst = true →
    ∃ t, step s = .next t ∧ t.phase = .idle ∧ t.err = .none ∧ t.ovf = false ∧ t.pendingLen = 0 ∧ t.totalBits = 0 ∧
      t.status = 0x0000#16 ∧ t.digestValid = false ∧ Memory.wf t.pending = true ∧ t.inputs = rest

/-- R37, R150: the values the spec gives for the state after power-on reset. -/
def Obligations.PowerOnResetState : Prop :=
  State.reset.phase = .idle ∧ State.reset.err = .none ∧ State.reset.ovf = false ∧ State.reset.pendingLen = 0 ∧
  State.reset.totalBits = 0 ∧ State.reset.status = 0x0000#16 ∧ State.reset.digestValid = false

/-- A word of the opcode table placed for the next step is what the next step runs (log entry 8). -/
def Obligations.PlacedWordRunsNext : Prop :=
  ∀ (s : State) (nbits w : Nat) (i : Instr), decodeTableWord nbits w = some i →
    step (s.withFetchWord nbits w) = exec i s

/-! NOP and INIT. -/

/-- R81: from any state `s`, NOP gives `s`, whatever its data bits. -/
def Obligations.NopLeavesTheState : Prop :=
  ∀ (w : CmdWord) (s : State), opField w = 0b00#2 → exec (decode w) s = .next s

/-- R82: INIT completes in every state; all eight registers hold IV, the buffer is zero, the counters and flags are clear,
the phase is ACTIVE; the transient state is not touched. Then: after INIT the state is the same whatever it was before
but for the transient state, and INIT twice in a row equals INIT once. -/
def Obligations.InitMakesAFreshState : Prop :=
  (∀ (w : CmdWord) (s : State), opField w = 0b01#2 → Memory.wf s.pending = true →
    ∃ t, exec (decode w) s = .next t ∧
      (∀ i : Fin 8, t.v[i] = Config.iv[i]) ∧ (∀ a, a < 64 → t.pending.read a = 0x00#8) ∧
      t.pendingLen = 0 ∧ t.totalBits = 0 ∧ t.ovf = false ∧ t.err = .none ∧ t.phase = .active ∧
      t.status = 0x0001#16 ∧ t.digestValid = false ∧
      t.w = s.w ∧ t.wp = s.wp ∧ t.work = s.work ∧ t.t = s.t ∧ t.j = s.j ∧ t.inputs = s.inputs ∧ t.draws = s.draws) ∧
  (∀ s s' : State, Memory.wf s.pending = true → Memory.wf s'.pending = true →
    s.w = s'.w → s.wp = s'.wp → s.work = s'.work → s.t = s'.t → s.j = s'.j → s.inputs = s'.inputs →
    s.draws = s'.draws → exec .init s = exec .init s') ∧
  ∀ s t : State, Memory.wf s.pending = true → exec .init s = .next t → exec .init t = .next t

/-! ABSORB. -/

/-- R83, corner case (b): in phase ACTIVE with at most 62 bytes pending, ABSORB completes; it stores its byte at
`pending_len`, counts it, and changes nothing else. -/
def Obligations.AbsorbStoresAByte : Prop :=
  ∀ (b : Byte) (s : State), s.phase = .active → s.pendingLen.toNat ≤ 62 → Memory.wf s.pending = true →
    ∃ t, exec (.absorb b) s = .next t ∧
      (∀ a, t.pending.read a = if a = s.pendingLen.toNat then b else s.pending.read a) ∧
      Memory.wf t.pending = true ∧ t.pendingLen.toNat = s.pendingLen.toNat + 1 ∧
      t = { s with pending := t.pending, pendingLen := t.pendingLen }

/-- R83, corner cases (a) and (d): in phase ACTIVE with 63 bytes pending, ABSORB completes the block: `V` becomes the
compression of the 64 bytes, 512 bits are counted with the carry kept in `ovf`, and the buffer starts anew. -/
def Obligations.AbsorbCompressesAFullBlock : Prop :=
  ∀ (b : Byte) (s : State), s.phase = .active → s.pendingLen.toNat = 63 → Memory.wf s.pending = true →
    ∃ t, exec (.absorb b) s = .next t ∧
      t.v = cf s.v (s.block.set 63 b) ∧
      t.totalBits.toNat = (s.totalBits.toNat + 512) % 2 ^ 32 ∧
      (t.ovf = true ↔ s.ovf = true ∨ 2 ^ 32 ≤ s.totalBits.toNat + 512) ∧
      t.pendingLen = 0 ∧ t.phase = .active ∧ t.err = s.err ∧ t.inputs = s.inputs ∧
      (∀ a, t.pending.read a = if a = 63 then b else s.pending.read a)

/-- What ABSORB leaves alone, on every path on which it goes on. Its one store is at `pending_len`, in phase ACTIVE. -/
def Obligations.AbsorbFrame : Prop :=
  ∀ (b : Byte) (s t : State), exec (.absorb b) s = .next t →
    t.phase = s.phase ∧ t.inputs = s.inputs ∧
    (∀ a, a ≠ s.pendingLen.toNat → t.pending.read a = s.pending.read a) ∧
    (s.phase = .active → t.err = s.err) ∧
    (s.phase ≠ .active → t = { s with err := t.err }) ∧
    (s.pendingLen.toNat ≠ 63 → t.v = s.v ∧ t.totalBits = s.totalBits ∧ t.ovf = s.ovf ∧ t.w = s.w ∧ t.wp = s.wp ∧
      t.work = s.work ∧ t.t = s.t ∧ t.j = s.j ∧ t.draws = s.draws)

/-! FINALIZE. -/

/-- R90, R91: FINALIZE of a message that leaves at most 55 bytes pending, with no overflow: one compression, of the block
R91 lays out, and the consumed state of a successful end. -/
def Obligations.FinalizeWithOneBlock : Prop :=
  ∀ s : State, s.phase = .active → s.pendingLen.toNat ≤ 55 → Memory.wf s.pending = true → s.ovf = false →
    s.totalBits.toNat + 8 * s.pendingLen.toNat < 2 ^ 32 →
    ∃ t, exec .finalize s = .next t ∧
      t.totalBits.toNat = s.totalBits.toNat + 8 * s.pendingLen.toNat ∧
      t.v = cf s.v (onlyPadBlock s.block s.pendingLen.toNat t.totalBits) ∧
      t.block = onlyPadBlock s.block s.pendingLen.toNat t.totalBits ∧
      t.ovf = false ∧ t.pendingLen = 0 ∧ t.phase = .done ∧ t.err = s.err ∧ t.inputs = s.inputs

/-- R90, R91: FINALIZE with 56 to 63 bytes pending, with no overflow: two compressions, of the two blocks R91 lays out. -/
def Obligations.FinalizeWithTwoBlocks : Prop :=
  ∀ s : State, s.phase = .active → 56 ≤ s.pendingLen.toNat → s.pendingLen.toNat ≤ 63 → Memory.wf s.pending = true →
    s.ovf = false → s.totalBits.toNat + 8 * s.pendingLen.toNat < 2 ^ 32 →
    ∃ t, exec .finalize s = .next t ∧
      t.totalBits.toNat = s.totalBits.toNat + 8 * s.pendingLen.toNat ∧
      t.v = cf (cf s.v (firstPadBlock s.block s.pendingLen.toNat)) (secondPadBlock t.totalBits) ∧
      t.block = secondPadBlock t.totalBits ∧
      t.ovf = false ∧ t.pendingLen = 0 ∧ t.phase = .done ∧ t.err = s.err ∧ t.inputs = s.inputs

/-- R90, R132, R136: FINALIZE in phase ACTIVE with `ovf` set, or with a carry out of its step 1: the fault INPUT_TOO_LARGE
is recorded, the phase is DONE, step 1's counter and flag stand, and nothing else changes. -/
def Obligations.FinalizeOfTooLongInputFaults : Prop :=
  ∀ s : State, s.phase = .active →
    (s.ovf = true ∨ 2 ^ 32 ≤ s.totalBits.toNat + 8 * s.pendingLen.toNat) →
    exec .finalize s = .next { s with
      totalBits := s.totalBits + BitVec.ofNat 32 (8 * s.pendingLen.toNat)
      ovf := true
      phase := .done
      err := if s.err = .none then .inputTooLarge else s.err }

/-- What FINALIZE leaves alone, on every path on which it goes on. Its stores lie from `pending_len` on when at most 55
bytes are pending, and inside the 64 bytes always; the failing paths store nothing. -/
def Obligations.FinalizeFrame : Prop :=
  ∀ s t : State, exec .finalize s = .next t →
    t.inputs = s.inputs ∧
    (∀ a, 64 ≤ a → t.pending.read a = s.pending.read a) ∧
    (s.pendingLen.toNat ≤ 55 → ∀ a, a < s.pendingLen.toNat → t.pending.read a = s.pending.read a) ∧
    (s.phase ≠ .active → t = { s with err := t.err }) ∧
    (s.phase = .active → t.ovf = true → t = { s with
      totalBits := t.totalBits, ovf := t.ovf, phase := t.phase, err := t.err }) ∧
    (s.phase = .active → t.ovf = false → t.err = s.err)

/-! Faults and the lifecycle. -/

/-- R131: ABSORB or FINALIZE in phase IDLE or DONE raises SEQ_ERROR and does nothing else. -/
def Obligations.LifecycleViolationIsRecordedOnly : Prop :=
  ∀ (i : Instr) (s : State), (i = .finalize ∨ ∃ b, i = .absorb b) → s.phase ≠ .active →
    exec i s = .next { s with err := if s.err = .none then .seqError else s.err }

/-- R133: the first fault since the last INIT or reset is kept; `err` is cleared by INIT and hardware reset only; while it
is set `digest_valid` is 0. -/
def Obligations.FirstFaultIsKept : Prop :=
  (∀ (s : State) (c : ErrCode), (s.raiseFault c).err = if s.err = .none then c else s.err) ∧
  (∀ (s t : State), step s = .next t → s.err ≠ .none → t.err ≠ s.err →
    ∃ p rest, s.inputs = p :: rest ∧ t.err = .none ∧ (p.rst = true ∨ p.cmdValid = true ∧ decode p.cmd = .init)) ∧
  ∀ s : State, s.err ≠ .none → s.digestValid = false

/-- R130: the complete list of faults: what a command may record, when, and that NOP and INIT never fault. -/
def Obligations.OnlyTheListedFaultsAreRecorded : Prop :=
  ∀ (i : Instr) (s t : State), exec i s = .next t → t.err ≠ s.err →
    (i = .init ∧ t.err = .none) ∨
    ((i = .finalize ∨ ∃ b, i = .absorb b) ∧ s.phase ≠ .active ∧ s.err = .none ∧ t.err = .seqError) ∨
    (i = .finalize ∧ s.phase = .active ∧ s.err = .none ∧ t.err = .inputTooLarge ∧ t.ovf = true)

/-- R137: while a fault is recorded, NOP, ABSORB and FINALIZE change nothing at all: only INIT or reset leads on. -/
def Obligations.FaultedStateIsFrozen : Prop :=
  ∀ (i : Instr) (s : State), s.Inv → s.err ≠ .none → i ≠ .init → exec i s = .next s

/-- R31: the phase transitions, complete, and the codes of the phases on STATUS. -/
def Obligations.PhaseTransitions : Prop :=
  (∀ (i : Instr) (s t : State), exec i s = .next t →
    t.phase = match i with
      | .nop => s.phase
      | .init => .active
      | .absorb _ => s.phase
      | .finalize => if s.phase = .active then .done else s.phase) ∧
  (∀ (i : Instr) (s t : State), exec i s = .next t → (i = .finalize ∨ ∃ b, i = .absorb b) → s.phase ≠ .active →
    s.err = .none → t.err = .seqError) ∧
  (∀ (s : State) (p : PortSample) (rest : List PortSample), s.inputs = p :: rest → p.rst = true →
    ∃ t, step s = .next t ∧ t.phase = .idle) ∧
  ∀ s : State, (s.status.extractLsb' 0 2).toNat = match s.phase with
    | .idle => 0
    | .active => 1
    | .done => 2

/-- R94: after FINALIZE a further ABSORB or FINALIZE faults, and the digest is no longer presented. -/
def Obligations.FinalizeIsOneShot : Prop :=
  ∀ (i : Instr) (s t : State), exec .finalize s = .next t → s.phase = .active →
    (i = .finalize ∨ ∃ b, i = .absorb b) →
    t.phase = .done ∧ ∃ u, exec i t = .next u ∧ u = { t with err := if t.err = .none then .seqError else t.err } ∧
      u.err ≠ .none ∧ u.digestValid = false

/-- R159: from a state that meets the invariant, FINALIZE in phase ACTIVE completes, and the run has ended: well, with
`status = 0x0022`, or faulted. -/
def Obligations.FinalizeEndsTheRun : Prop :=
  ∀ s : State, s.Inv → s.phase = .active →
    ∃ t, exec .finalize s = .next t ∧ t.phase = .done ∧
      ((t.goodEnd = true ∧ t.status = 0x0022#16 ∧ t.digestValid = true) ∨
       (t.faultedEnd = true ∧ t.err = .inputTooLarge ∧ t.digestValid = false))

/-- R163: every command completes, from every state that meets the invariant. -/
def Obligations.EveryCommandCompletes : Prop :=
  ∀ (i : Instr) (s : State), s.Inv → ∃ t, exec i s = .next t

/-- The model's one stop (log entry 10): ABSORB and FINALIZE stop exactly in phase ACTIVE with `pending_len` above 63, which
R26 excludes (FINALIZE unless its overflow test turns it away first); no other command stops, and none is refused. -/
def Obligations.OnlyAnOverrunStops : Prop :=
  (∀ (b : Byte) (s : State), exec (.absorb b) s = .fault .pendingOutOfRange ↔
    s.phase = .active ∧ 64 ≤ s.pendingLen.toNat) ∧
  (∀ s : State, exec .finalize s = .fault .pendingOutOfRange ↔
    s.phase = .active ∧ 64 ≤ s.pendingLen.toNat ∧ s.ovf = false ∧
      s.totalBits.toNat + 8 * s.pendingLen.toNat < 2 ^ 32) ∧
  (∀ (i : Instr) (s : State) (r : Fault), exec i s = .fault r → i = .finalize ∨ ∃ b, i = .absorb b) ∧
  ∀ (i : Instr) (s : State) (r : Refusal), exec i s ≠ .refused r

/-! Who writes what, over all commands. -/

/-- R23: `V` is written by INIT, by the ABSORB that fills the buffer, and by a FINALIZE that succeeds, and by no other
command. -/
def Obligations.OnlyTheseCommandsWriteV : Prop :=
  ∀ (i : Instr) (s t : State), exec i s = .next t → t.v ≠ s.v →
    (i = .init ∧ t.v = Config.iv) ∨ ((∃ b, i = .absorb b) ∧ s.phase = .active ∧ s.pendingLen.toNat = 63) ∨
    (i = .finalize ∧ s.phase = .active ∧ t.phase = .done ∧ t.ovf = false)

/-- R28, R29: the bit counter and its carry, over all commands: what is added, when, and the sticky flag. -/
def Obligations.BitCounterAndCarry : Prop :=
  ∀ (i : Instr) (s t : State), exec i s = .next t →
    let added := match i with
      | .absorb _ => if s.phase = .active ∧ s.pendingLen.toNat = 63 then 512 else 0
      | .finalize => if s.phase = .active then 8 * s.pendingLen.toNat else 0
      | _ => 0
    if i = .init then t.totalBits = 0 ∧ t.ovf = false
    else t.totalBits.toNat = (s.totalBits.toNat + added) % 2 ^ 32 ∧
      (t.ovf = true ↔ s.ovf = true ∨ 2 ^ 32 ≤ s.totalBits.toNat + added)

/-- R26: the fill count, over all commands that go on. -/
def Obligations.FillCount : Prop :=
  ∀ (i : Instr) (s t : State), exec i s = .next t →
    t.pendingLen.toNat = match i with
      | .nop => s.pendingLen.toNat
      | .init => 0
      | .absorb _ => if s.phase = .active then (s.pendingLen.toNat + 1) % 64 else s.pendingLen.toNat
      | .finalize => if s.phase = .active ∧ t.ovf = false then 0 else s.pendingLen.toNat

/-! The outputs. -/

/-- R32: the STATUS word, field by field, with the codes of `phase` (R31) and of `err` (R30, R130) written out. -/
def Obligations.StatusWordLayout : Prop :=
  ∀ s : State,
    s.status.extractLsb' 0 2 = (match s.phase with
      | .idle => 0#2
      | .active => 1#2
      | .done => 2#2) ∧
    s.status.extractLsb' 2 2 = (match s.err with
      | .none => 0#2
      | .seqError => 1#2
      | .inputTooLarge => 2#2) ∧
    s.status.getLsbD 4 = s.ovf ∧ s.status.getLsbD 5 = s.digestValid ∧ s.status.extractLsb' 6 2 = 0#2 ∧
    s.status.extractLsb' 8 7 = s.pendingLen ∧ s.status.getLsbD 15 = false

/-- R33: `digest_valid` is 1 exactly in phase DONE with no fault recorded. -/
def Obligations.DigestValidExactlyWhenDone : Prop :=
  ∀ s : State, s.digestValid = true ↔ s.phase = .done ∧ s.err = .none

/-- R24, R93: digest byte `k` lies at `digest[255-8k : 248-8k]` and is byte `k mod 4` of `BYTES32(V[k div 4])`, that is
`V[i][31-8m : 24-8m]` for `k = 4i + m`. -/
def Obligations.DigestPortLayout : Prop :=
  ∀ (s : State) (k : Fin 32),
    s.digestByte k = s.digest.extractLsb' (248 - 8 * k.val) 8 ∧
    s.digestByte k = bytes32 s.v[k.val / 4] ⟨k.val % 4, by omega⟩ ∧
    s.digestByte k = s.v[k.val / 4].extractLsb' (24 - 8 * (k.val % 4)) 8

/-! Words and bytes. -/

/-- R9: `rotl` moves bit `i` to bit `(i + k) mod 32`; its laws. -/
def Obligations.RotationMovesBits : Prop :=
  (∀ (x : Word) (k i : Nat), k ≤ 31 → i < 32 → (rotl x k).getLsbD ((i + k) % 32) = x.getLsbD i) ∧
  (∀ x : Word, rotl x 0 = x) ∧
  (∀ (x : Word) (k : Nat), 1 ≤ k → k ≤ 31 → rotl x k = (x <<< k) ||| (x >>> (32 - k))) ∧
  (∀ (x : Word) (a b : Nat), a ≤ 31 → b ≤ 31 → rotl (rotl x a) b = rotl x ((a + b) % 32)) ∧
  (∀ (x y : Word) (k : Nat), k ≤ 31 → rotl (x ^^^ y) k = rotl x k ^^^ rotl y k) ∧
  ∀ k : Nat, k ≤ 31 → rotl 0 k = 0 ∧ rotl 0xffffffff#32 k = 0xffffffff#32

/-- R12: the permutation functions are linear over XOR and map 0 to 0. -/
def Obligations.PermutationsAreLinear : Prop :=
  (∀ x : Word, p0 x = x ^^^ rotl x 9 ^^^ rotl x 17 ∧ p1 x = x ^^^ rotl x 15 ^^^ rotl x 23) ∧
  (∀ x y : Word, p0 (x ^^^ y) = p0 x ^^^ p0 y ∧ p1 (x ^^^ y) = p1 x ^^^ p1 y) ∧ p0 0 = 0 ∧ p1 0 = 0

/-- R11: `BE32` weighs its first byte by 2^24, and `BYTES32` is its inverse; `BYTES64` gives the most significant byte
first. -/
def Obligations.BigEndianBytes : Prop :=
  (∀ b0 b1 b2 b3 : Byte,
    (be32 b0 b1 b2 b3).toNat = b0.toNat * 2 ^ 24 + b1.toNat * 2 ^ 16 + b2.toNat * 2 ^ 8 + b3.toNat ∧
    bytes32 (be32 b0 b1 b2 b3) 0 = b0 ∧ bytes32 (be32 b0 b1 b2 b3) 1 = b1 ∧
    bytes32 (be32 b0 b1 b2 b3) 2 = b2 ∧ bytes32 (be32 b0 b1 b2 b3) 3 = b3) ∧
  (∀ w : Word, be32 (bytes32 w 0) (bytes32 w 1) (bytes32 w 2) (bytes32 w 3) = w) ∧
  ∀ (x : BitVec 64) (k : Fin 8), (bytes64 x k).toNat = x.toNat / 2 ^ (56 - 8 * k.val) % 256

/-- R114, R115: the Boolean functions bit by bit: parity in rounds 0..15, majority and choose from round 16 on. -/
def Obligations.BooleanFunctionsBitwise : Prop :=
  ∀ (j : Nat) (x y z : Word) (i : Nat), i < 32 →
    (ff j x y z).getLsbD i =
      (if j ≤ 15 then (x.getLsbD i).xor ((y.getLsbD i).xor (z.getLsbD i))
       else decide (2 ≤ (x.getLsbD i).toNat + (y.getLsbD i).toNat + (z.getLsbD i).toNat)) ∧
    (gg j x y z).getLsbD i =
      (if j ≤ 15 then (x.getLsbD i).xor ((y.getLsbD i).xor (z.getLsbD i))
       else if x.getLsbD i then y.getLsbD i else z.getLsbD i)

/-- R112: the sequence of 64 round constants; R113: the running form yields the same. -/
def Obligations.RoundConstantSequence : Prop :=
  (List.range 64).map roundConst =
    [0x79cc4519#32, 0xf3988a32#32, 0xe7311465#32, 0xce6228cb#32, 0x9cc45197#32, 0x3988a32f#32, 0x7311465e#32, 0xe6228cbc#32] ++
    [0xcc451979#32, 0x988a32f3#32, 0x311465e7#32, 0x6228cbce#32, 0xc451979c#32, 0x88a32f39#32, 0x11465e73#32, 0x228cbce6#32] ++
    [0x9d8a7a87#32, 0x3b14f50f#32, 0x7629ea1e#32, 0xec53d43c#32, 0xd8a7a879#32, 0xb14f50f3#32, 0x629ea1e7#32, 0xc53d43ce#32] ++
    [0x8a7a879d#32, 0x14f50f3b#32, 0x29ea1e76#32, 0x53d43cec#32, 0xa7a879d8#32, 0x4f50f3b1#32, 0x9ea1e762#32, 0x3d43cec5#32] ++
    [0x7a879d8a#32, 0xf50f3b14#32, 0xea1e7629#32, 0xd43cec53#32, 0xa879d8a7#32, 0x50f3b14f#32, 0xa1e7629e#32, 0x43cec53d#32] ++
    [0x879d8a7a#32, 0x0f3b14f5#32, 0x1e7629ea#32, 0x3cec53d4#32, 0x79d8a7a8#32, 0xf3b14f50#32, 0xe7629ea1#32, 0xcec53d43#32] ++
    [0x9d8a7a87#32, 0x3b14f50f#32, 0x7629ea1e#32, 0xec53d43c#32, 0xd8a7a879#32, 0xb14f50f3#32, 0x629ea1e7#32, 0xc53d43ce#32] ++
    [0x8a7a879d#32, 0x14f50f3b#32, 0x29ea1e76#32, 0x53d43cec#32, 0xa7a879d8#32, 0x4f50f3b1#32, 0x9ea1e762#32, 0x3d43cec5#32] ∧
  (∀ j, j ≤ 15 → roundConst j = rotl 0x79cc4519#32 (j % 32)) ∧
  (∀ j, 16 ≤ j → j ≤ 63 → roundConst j = rotl 0x7a879d8a#32 (j % 32)) ∧
  ∀ j, j ≤ 63 → runningConst j = roundConst j

/-! The micro-operations. -/

/-- R101, R43: LDW writes one word of the schedule, big-endian: the byte at buffer address `a` is bits
`[31 - 8 (a mod 4) : 24 - 8 (a mod 4)]` of word `a div 4`; the rest of `W` stays. -/
def Obligations.LoadWordIsBigEndian : Prop :=
  ∀ (s : State) (a : Fin 64),
    (execMicro (.ldw ⟨a.val / 4, by omega⟩) s).w[a.val / 4].extractLsb' (24 - 8 * (a.val % 4)) 8 = s.memRead1 a ∧
    ∀ (i : Nat) (h : i < 68), i ≠ a.val / 4 → (execMicro (.ldw ⟨a.val / 4, by omega⟩) s).w[i] = s.w[i]

/-- R102, R103: XPW and XPP, with the indices as the rules write them. -/
def Obligations.ExpansionRecurrences : Prop :=
  (∀ (s : State) (j : Nat) (h : 16 ≤ j ∧ j ≤ 67),
    (execMicro (.xpw ⟨j - 16, by omega⟩) s).w[j] =
      p1 (s.w[j - 16] ^^^ s.w[j - 9] ^^^ rotl s.w[j - 3] 15) ^^^ rotl s.w[j - 13] 7 ^^^ s.w[j - 6] ∧
    (∀ (i : Nat) (hi : i < 68), i ≠ j → (execMicro (.xpw ⟨j - 16, by omega⟩) s).w[i] = s.w[i]) ∧
    (execMicro (.xpw ⟨j - 16, by omega⟩) s).wp = s.wp) ∧
  ∀ (s : State) (j : Nat) (h : j ≤ 63),
    (execMicro (.xpp ⟨j, by omega⟩) s).wp[j] = s.w[j] ^^^ s.w[j + 4] ∧
    (∀ (i : Nat) (hi : i < 64), i ≠ j → (execMicro (.xpp ⟨j, by omega⟩) s).wp[i] = s.wp[i]) ∧
    (execMicro (.xpp ⟨j, by omega⟩) s).w = s.w

/-- R111, R119: LDV copies the register bank and leaves it; FBK XORs the working registers into it; no other
micro-operation writes it. -/
def Obligations.LoadAndFeedback : Prop :=
  (∀ s : State, (execMicro .ldv s).work = ⟨s.v[0], s.v[1], s.v[2], s.v[3], s.v[4], s.v[5], s.v[6], s.v[7]⟩ ∧
    (execMicro .ldv s).w = s.w ∧ (execMicro .ldv s).wp = s.wp ∧ (execMicro .ldv s).pending = s.pending) ∧
  (∀ (op : MicroOp) (s : State), op ≠ .fbk → (execMicro op s).v = s.v) ∧
  ∀ s : State, (execMicro .fbk s).work = s.work ∧ (execMicro .fbk s).w = s.w ∧ (execMicro .fbk s).wp = s.wp ∧
    (execMicro .fbk s).pending = s.pending ∧ (execMicro .fbk s).v.toList =
    [s.v[0] ^^^ s.work.a, s.v[1] ^^^ s.work.b, s.v[2] ^^^ s.work.c, s.v[3] ^^^ s.work.d,
     s.v[4] ^^^ s.work.e, s.v[5] ^^^ s.work.f, s.v[6] ^^^ s.work.g, s.v[7] ^^^ s.work.h]

/-- R116, R117, R118: one round with `SS1`, `SS2`, `TT1`, `TT2` written out, all eight registers in parallel from their
entry values; the schedules are only read. -/
def Obligations.RoundWritesInParallel : Prop :=
  ∀ (s : State) (j : Fin 64),
    let r := s.work
    let ss1 := rotl (rotl r.a 12 + r.e + roundConst j.val) 7
    let ss2 := ss1 ^^^ rotl r.a 12
    let tt1 := ff j.val r.a r.b r.c + r.d + ss2 + s.wp[j.val]
    let tt2 := gg j.val r.e r.f r.g + r.h + ss1 + s.w[j.val]
    (execMicro (.rnd j) s).work = ⟨tt1, r.a, rotl r.b 9, r.c, p0 tt2, r.e, rotl r.f 19, r.g⟩ ∧
    (execMicro (.rnd j) s).w = s.w ∧ (execMicro (.rnd j) s).wp = s.wp ∧ (execMicro (.rnd j) s).v = s.v

/-! The compression. -/

/-- R125, R126: COMPRESS is 198 micro-operations in the reference order, and its `V` is what they compute; it writes `V` and
the transient state only. -/
def Obligations.CompressOrderAndFrame : Prop :=
  (compressOps.length = 198 ∧
    (∀ (p : Nat) (h : p < 16), compressOps[p]? = some (.ldw ⟨p, h⟩)) ∧
    (∀ (p : Nat) (h : 16 ≤ p ∧ p < 68), compressOps[p]? = some (.xpw ⟨p - 16, by omega⟩)) ∧
    (∀ (p : Nat) (h : 68 ≤ p ∧ p < 132), compressOps[p]? = some (.xpp ⟨p - 68, by omega⟩)) ∧
    compressOps[132]? = some .ldv ∧
    (∀ (p : Nat) (h : 133 ≤ p ∧ p < 197), compressOps[p]? = some (.rnd ⟨p - 133, by omega⟩)) ∧
    compressOps[197]? = some .fbk) ∧
  ∀ s : State, s.compress.v = (runMicro compressOps s).v ∧ s.compress.pending = s.pending ∧ s.compress.pendingLen = s.pendingLen ∧
    s.compress.totalBits = s.totalBits ∧ s.compress.ovf = s.ovf ∧ s.compress.err = s.err ∧
    s.compress.phase = s.phase ∧ s.compress.inputs = s.inputs

/-- R127: after COMPRESS, `V` is `CF(V, pending)`: a function of the register bank and the block alone, whatever the
transient state held. -/
def Obligations.CompressIsTheCompressionFunction : Prop :=
  ∀ s : State, s.compress.v = cf s.v s.block

/-- R104: micro-operations without a data dependence between them commute, in every element they compute. -/
def Obligations.IndependentMicroOpsCommute : Prop :=
  ∀ (a b : MicroOp) (s : State), MicroOp.independent a b = true →
    let t := execMicro a (execMicro b s)
    let u := execMicro b (execMicro a s)
    t.v = u.v ∧ t.w = u.w ∧ t.wp = u.wp ∧ t.work = u.work ∧ t.pending = u.pending

/-- R104: every order of the 198 micro-operations that keeps the order of dependent ones computes the same schedules and
the same `V`. -/
def Obligations.EveryScheduleComputesTheSame : Prop :=
  ∀ (l : List MicroOp) (s : State), RespectsDependences l →
    (runMicro l s).v = (runMicro compressOps s).v ∧ (runMicro l s).w = (runMicro compressOps s).w ∧
    (runMicro l s).wp = (runMicro compressOps s).wp

/-- R105: `EXPAND` is linear over XOR, element by element of both schedules, and gives all-zero schedules for the all-zero
block, whatever the schedules held before. -/
def Obligations.ExpansionIsLinear : Prop :=
  (∀ x y z : State, (∀ a : Fin 64, z.memRead1 a = x.memRead1 a ^^^ y.memRead1 a) →
    (∀ (j : Nat) (h : j < 68), (runMicro expandOps z).w[j] = (runMicro expandOps x).w[j] ^^^ (runMicro expandOps y).w[j]) ∧
    ∀ (j : Nat) (h : j < 64),
      (runMicro expandOps z).wp[j] = (runMicro expandOps x).wp[j] ^^^ (runMicro expandOps y).wp[j]) ∧
  ∀ x : State, (∀ a : Fin 64, x.memRead1 a = 0x00#8) →
    (∀ (j : Nat) (h : j < 68), (runMicro expandOps x).w[j] = 0) ∧
    ∀ (j : Nat) (h : j < 64), (runMicro expandOps x).wp[j] = 0

/-! Invariants. -/

/-- The invariant holds after power-on reset (R36; it rests on what the model names there, log entry 3). -/
def Obligations.InvariantAtReset : Prop := State.reset.Inv

/-- R36: every step keeps the invariant: reset, every command, waiting. -/
def Obligations.EveryStepKeepsTheInvariant : Prop :=
  ∀ s t : State, s.Inv → step s = .next t → t.Inv

/-- The pending buffer keeps its canonical form, from every state, whatever else holds (log entry 3). -/
def Obligations.EveryStepKeepsTheMemoryForm : Prop :=
  ∀ s t : State, Memory.wf s.pending = true → step s = .next t → Memory.wf t.pending = true

/-! Isolation. -/

/-- R86: what steers the engine never depends on message content: two states that agree on the counters, the flags and the
phase, under commands that differ at most in the message byte, go on to states that agree on them again. -/
def Obligations.ControlIgnoresMessageContent : Prop :=
  ∀ (i i' : Instr) (s s' : State), i.mnemonic = i'.mnemonic → SameControl s s' →
    OutcomeRel SameControl (exec i s) (exec i' s')

/-- R39, R48, R150, R151: over any number of steps, nothing the host can see depends on an unspecified, transient or stale
element: two states that differ in those alone stay so, show the same STATUS, and out of phase IDLE the same digest port. -/
def Obligations.UnspecifiedStateIsNeverObserved : Prop :=
  (∀ (k : Nat) (s s' : State), SameSpecified s s' →
    OutcomeRel SameSpecified (Host.Core.run Sys2Proof.core k s) (Host.Core.run Sys2Proof.core k s')) ∧
  ∀ s s' : State, SameSpecified s s' → s.status = s'.status ∧ (s.phase ≠ .idle → s.digest = s'.digest)

/-! Messages. -/

/-- R84: NOP commands interleaved anywhere change nothing, and absorbing in two calls is absorbing in one. -/
def Obligations.ChunkingInvariance : Prop :=
  (∀ (l : List Instr) (s : State), runInstrs (l.filter (fun i => decide (i ≠ .nop))) s = runInstrs l s) ∧
  ∀ (x y : List Byte) (s t : State), runInstrs (absorbBytes x) s = .next t →
    runInstrs (absorbBytes y) t = runInstrs (absorbBytes (x ++ y)) s

/-- R85, and R36(d) and (f) for every length: the state after absorbing `n` bytes from INIT, for every `n`; below 2^29 bytes the counter has
not wrapped. -/
def Obligations.StateAfterAbsorbing : Prop :=
  ∀ (m : List Byte) (s : State), Memory.wf s.pending = true →
    ∃ t, runInstrs (.init :: absorbBytes m) s = .next t ∧
      t.phase = .active ∧ t.err = .none ∧
      t.pendingLen.toNat = m.length % 64 ∧
      t.totalBits.toNat = (512 * (m.length / 64)) % 2 ^ 32 ∧ (t.ovf = true ↔ 2 ^ 29 ≤ m.length) ∧
      (∀ k, k < m.length % 64 → t.pending.read k = m.getD (64 * (m.length / 64) + k) 0) ∧
      t.v = chain Config.iv m (m.length / 64) ∧
      (m.length ≤ 2 ^ 29 - 1 → t.ovf = false ∧ t.totalBits.toNat = 512 * (m.length / 64))

/-- R95: the padded message fills `r = (n + 9 + 63) div 64` blocks exactly, and for every message of at most 2^29 - 1 bytes
the sequence INIT, the bytes, FINALIZE, from any state, chains the compression over those blocks; the digest port
serialises the result, valid. -/
def Obligations.HashIsTheChainOverThePaddedMessage : Prop :=
  (∀ m : List Byte, (padMessage m).length = 64 * ((m.length + 9 + 63) / 64)) ∧
  ∀ (m : List Byte) (s : State), Memory.wf s.pending = true → m.length ≤ 2 ^ 29 - 1 →
    ∃ t, runInstrs (hashCommands m) s = .next t ∧
      t.v = chain Config.iv (padMessage m) ((m.length + 9 + 63) / 64) ∧
      (∀ k : Fin 32, t.digestByte k =
        bytes32 (chain Config.iv (padMessage m) ((m.length + 9 + 63) / 64))[k.val / 4] ⟨k.val % 4, by omega⟩) ∧
      t.digestValid = true ∧ t.status = 0x0022#16

/-- R96: for every message of 2^29 bytes or more the same sequence ends with INPUT_TOO_LARGE and no digest. -/
def Obligations.OversizeMessageGivesNoDigest : Prop :=
  ∀ (m : List Byte) (s : State), Memory.wf s.pending = true → 2 ^ 29 ≤ m.length →
    ∃ t, runInstrs (hashCommands m) s = .next t ∧
      t.phase = .done ∧ t.err = .inputTooLarge ∧ t.ovf = true ∧ t.digestValid = false

/-! Script texts of the pseudo-commands. -/

/-- R66, R67: the text of a pseudo-command stands for its expansion: ABSORBN and HASH with any number of bytes, each in any of
its texts, and ABSORBS with any ASCII text. A double quote inside a text is left out, since the spec says nothing of it
(log entry 17). -/
def Obligations.AssemblerReadsPseudoCommandText : Prop :=
  (∀ ps : List (Byte × List Char), (∀ p ∈ ps, p.2 ∈ byteTexts p.1) →
    assembleLine ("ABSORBN".toList ++ ps.flatMap (fun p => ' ' :: p.2)) = .ok (absorbBytes (ps.map Prod.fst)) ∧
    assembleLine ("HASH".toList ++ ps.flatMap (fun p => ' ' :: p.2)) = .ok (hashCommands (ps.map Prod.fst))) ∧
  ∀ text : List Char, text.all charFits = true → '"' ∉ text →
    assembleLine ("ABSORBS \"".toList ++ text ++ ['"']) =
      .ok (absorbBytes (text.map fun c => BitVec.ofNat 8 c.toNat))
end

