-- ==== Sys2Proof/Laws/Memory.lean ====
section
/-! SUPPORT. The pending buffer as a list of cells: reading after writing, the canonical form kept by every write, and
canonical buffers that read alike being equal. -/

namespace Sys2Proof.Machine

@[simp] theorem Memory.read_nil (a : Nat) : Memory.read [] a = Memory.unlisted := rfl

theorem Memory.wfFrom_mono {lo lo' : Nat} {m : Memory} (h : lo' ≤ lo) (hm : Memory.wfFrom lo m = true) :
    Memory.wfFrom lo' m = true := by
  cases m with
  | nil => rfl
  | cons c m =>
    obtain ⟨x, y⟩ := c
    simp only [Memory.wfFrom, Bool.and_eq_true, decide_eq_true_eq] at hm ⊢
    exact ⟨⟨⟨by omega, hm.1.1.2⟩, hm.1.2⟩, hm.2⟩

/-- Below the first address a canonical buffer lists nothing. -/
theorem Memory.read_lt {lo a : Nat} {m : Memory} (hm : Memory.wfFrom lo m = true) (ha : a < lo) :
    m.read a = Memory.unlisted := by
  induction m generalizing lo with
  | nil => rfl
  | cons c m ih =>
    obtain ⟨x, y⟩ := c
    simp only [Memory.wfFrom, Bool.and_eq_true, decide_eq_true_eq] at hm
    rw [Memory.read, if_neg (by omega)]
    exact ih hm.2 (by omega)

/-- At 64 and above a canonical buffer lists nothing. -/
theorem Memory.read_ge {lo a : Nat} {m : Memory} (hm : Memory.wfFrom lo m = true) (ha : 64 ≤ a) :
    m.read a = Memory.unlisted := by
  induction m generalizing lo with
  | nil => rfl
  | cons c m ih =>
    obtain ⟨x, y⟩ := c
    simp only [Memory.wfFrom, Config.blockBytes, Bool.and_eq_true, decide_eq_true_eq] at hm
    have hx : x < 64 := hm.1.1.2
    rw [Memory.read, if_neg (by omega)]
    exact ih hm.2

/-- A write leaves every other address alone, whatever the list. -/
theorem Memory.read_write_ne {m : Memory} {a x : Nat} {b : Byte} (h : x ≠ a) : (m.write a b).read x = m.read x := by
  induction m with
  | nil =>
    rw [Memory.write]
    split <;> simp [Memory.read, h]
  | cons c m ih =>
    obtain ⟨y, z⟩ := c
    rw [Memory.write]
    split
    · split <;> simp [Memory.read, h]
    · split
      · subst a
        split <;> simp [Memory.read, h]
      · simp only [Memory.read, ih]

/-- In a canonical buffer a read after a write gives the byte written. -/
theorem Memory.read_write_self {lo a : Nat} {m : Memory} {b : Byte} (hm : Memory.wfFrom lo m = true) :
    (m.write a b).read a = b := by
  induction m generalizing lo with
  | nil =>
    rw [Memory.write]
    split
    · simp_all
    · simp [Memory.read]
  | cons c m ih =>
    obtain ⟨x, y⟩ := c
    simp only [Memory.wfFrom, Bool.and_eq_true, decide_eq_true_eq] at hm
    rw [Memory.write]
    split
    · rename_i hax
      split
      · rename_i hb
        rw [Memory.read, if_neg (by omega), hb]
        exact Memory.read_lt hm.2 (by omega)
      · simp [Memory.read]
    · split
      · subst a
        split
        · rename_i hb
          rw [hb]
          exact Memory.read_lt hm.2 (by omega)
        · simp [Memory.read]
      · rename_i h1 h2
        rw [Memory.read, if_neg h2]
        exact ih hm.2

/-- Every write inside the buffer keeps the canonical form. -/
theorem Memory.wfFrom_write {lo a : Nat} {m : Memory} {b : Byte} (hm : Memory.wfFrom lo m = true) (hlo : lo ≤ a)
    (ha : a < 64) : Memory.wfFrom lo (m.write a b) = true := by
  induction m generalizing lo with
  | nil =>
    rw [Memory.write]
    split
    · rfl
    · simp_all [Memory.wfFrom, Config.blockBytes]
  | cons c m ih =>
    obtain ⟨x, y⟩ := c
    have hm' := hm
    simp only [Memory.wfFrom, Config.blockBytes, Bool.and_eq_true, decide_eq_true_eq] at hm
    rw [Memory.write]
    split
    · rename_i hax
      split
      · exact hm'
      · rename_i hb
        simp only [Memory.wfFrom, Config.blockBytes, Bool.and_eq_true, decide_eq_true_eq]
        exact ⟨⟨⟨hlo, ha⟩, hb⟩, ⟨⟨by omega, hm.1.1.2⟩, hm.1.2⟩, hm.2⟩
    · split
      · subst a
        split
        · exact Memory.wfFrom_mono (by omega) hm.2
        · rename_i hb
          simp only [Memory.wfFrom, Config.blockBytes, Bool.and_eq_true, decide_eq_true_eq]
          exact ⟨⟨hm.1.1, hb⟩, hm.2⟩
      · simp only [Memory.wfFrom, Config.blockBytes, Bool.and_eq_true, decide_eq_true_eq]
        exact ⟨hm.1, ih hm.2 (by omega)⟩

@[simp] theorem Memory.wf_nil : Memory.wf [] = true := rfl

theorem Memory.wf_write {a : Nat} {m : Memory} {b : Byte} (hm : Memory.wf m = true) (ha : a < 64) :
    Memory.wf (m.write a b) = true := Memory.wfFrom_write hm (Nat.zero_le a) ha

theorem Memory.read_write {m : Memory} {a x : Nat} {b : Byte} (hm : Memory.wf m = true) :
    (m.write a b).read x = if x = a then b else m.read x := by
  split
  · subst x
    exact Memory.read_write_self hm
  · exact Memory.read_write_ne ‹_›

/-- Canonical buffers that read alike are equal. -/
theorem Memory.ext_of_read {lo : Nat} {m m' : Memory} (hm : Memory.wfFrom lo m = true)
    (hm' : Memory.wfFrom lo m' = true) (h : ∀ a, m.read a = m'.read a) : m = m' := by
  induction m generalizing lo m' with
  | nil =>
    cases m' with
    | nil => rfl
    | cons c m' =>
      obtain ⟨x, y⟩ := c
      simp only [Memory.wfFrom, Bool.and_eq_true, decide_eq_true_eq] at hm'
      have := h x
      simp only [Memory.read, if_true] at this
      exact absurd this.symm hm'.1.2
  | cons c m ih =>
    obtain ⟨x, y⟩ := c
    simp only [Memory.wfFrom, Bool.and_eq_true, decide_eq_true_eq] at hm
    cases m' with
    | nil =>
      have := h x
      simp only [Memory.read, if_true] at this
      exact absurd this hm.1.2
    | cons c' m' =>
      obtain ⟨x', y'⟩ := c'
      simp only [Memory.wfFrom, Bool.and_eq_true, decide_eq_true_eq] at hm'
      have hx : x = x' := by
        rcases Nat.lt_trichotomy x x' with hlt | heq | hgt
        · have := h x
          rw [Memory.read, if_pos rfl, Memory.read, if_neg (by omega),
            Memory.read_lt hm'.2 (by omega)] at this
          exact absurd this hm.1.2
        · exact heq
        · have := h x'
          rw [Memory.read, if_neg (by omega), Memory.read, if_pos rfl,
            Memory.read_lt hm.2 (by omega)] at this
          exact absurd this.symm hm'.1.2
      subst x'
      have hy : y = y' := by
        have := h x
        simpa only [Memory.read, if_true] using this
      subst y'
      have hrest : ∀ a, Memory.read m a = Memory.read m' a := by
        intro a
        by_cases ha : a = x
        · rw [Memory.read_lt hm.2 (by omega), Memory.read_lt hm'.2 (by omega)]
        · have := h a
          simpa only [Memory.read, if_neg ha] using this
      rw [ih hm.2 hm'.2 hrest]

/-- Canonical buffers that read alike inside the 64-byte space are equal. -/
theorem Memory.ext_wf {m m' : Memory} (hm : Memory.wf m = true) (hm' : Memory.wf m' = true)
    (h : ∀ a, a < 64 → m.read a = m'.read a) : m = m' := by
  refine Memory.ext_of_read hm hm' fun a => ?_
  by_cases ha : a < 64
  · exact h a ha
  · rw [Memory.read_ge hm (by omega), Memory.read_ge hm' (by omega)]

/-- A fold of writes inside the buffer keeps the canonical form. -/
theorem Memory.wf_foldl {α : Type} (l : List α) (f : Memory → α → Memory) (m : Memory)
    (hf : ∀ m, Memory.wf m = true → ∀ k, Memory.wf (f m k) = true) (hm : Memory.wf m = true) :
    Memory.wf (l.foldl f m) = true := by
  induction l generalizing m with
  | nil => exact hm
  | cons k l ih => exact ih _ (hf m hm k)

/-- What a fold of conditional writes of one byte to distinct places reads as. -/
theorem Memory.read_foldl_write {α : Type} (l : List α) (addr : α → Nat) (val : α → Byte) (p : α → Prop)
    [DecidablePred p] (hinj : ∀ k ∈ l, ∀ k' ∈ l, addr k = addr k' → k = k') (hlt : ∀ k ∈ l, p k → addr k < 64)
    (m : Memory) (hm : Memory.wf m = true) :
    (∀ k ∈ l, p k → (l.foldl (fun m k => if p k then m.write (addr k) (val k) else m) m).read (addr k) = val k) ∧
    (∀ x, (∀ k ∈ l, p k → addr k ≠ x) →
      (l.foldl (fun m k => if p k then m.write (addr k) (val k) else m) m).read x = m.read x) := by
  induction l generalizing m with
  | nil => simp
  | cons k l ih =>
    have hm1 : Memory.wf (if p k then m.write (addr k) (val k) else m) = true := by
      split
      · exact Memory.wf_write hm (hlt k (by simp) ‹_›)
      · exact hm
    obtain ⟨ih1, ih2⟩ := ih (fun a ha b hb => hinj a (by simp [ha]) b (by simp [hb]))
      (fun a ha => hlt a (by simp [ha])) _ hm1
    refine ⟨fun a ha hpa => ?_, fun x hx => ?_⟩
    · by_cases hal : a ∈ l
      · exact ih1 a hal hpa
      · have hak : a = k := by simpa [hal] using ha
        subst a
        rw [List.foldl_cons, ih2 (addr k) ?_, if_pos hpa, Memory.read_write hm, if_pos rfl]
        intro b hb _ hbk
        exact hal (hinj b (by simp [hb]) k (by simp) hbk ▸ hb)
    · rw [List.foldl_cons, ih2 x fun b hb => hx b (by simp [hb])]
      split
      · exact Memory.read_write_ne fun he => hx k (by simp) ‹_› he.symm
      · rfl

end Sys2Proof.Machine
end

