-- ==== Sys2Proof/Laws/State.lean ====
section
/-! SUPPORT. One lemma for each field and each named update of the state: what the field holds after the update.
The proofs stand in parentheses so that simp takes the lemmas as equations to rewrite with, and the kernel never compares
two large states to check one field. -/

namespace Sys2Proof.Machine

/-! `setV` -/

@[simp] theorem State.setV_v (s : State) (x : Vector Word 8) : (s.setV x).v = x := (rfl)
@[simp] theorem State.setV_pending (s : State) (x : Vector Word 8) : (s.setV x).pending = s.pending := (rfl)
@[simp] theorem State.setV_pendingLen (s : State) (x : Vector Word 8) : (s.setV x).pendingLen = s.pendingLen := (rfl)
@[simp] theorem State.setV_totalBits (s : State) (x : Vector Word 8) : (s.setV x).totalBits = s.totalBits := (rfl)
@[simp] theorem State.setV_ovf (s : State) (x : Vector Word 8) : (s.setV x).ovf = s.ovf := (rfl)
@[simp] theorem State.setV_err (s : State) (x : Vector Word 8) : (s.setV x).err = s.err := (rfl)
@[simp] theorem State.setV_phase (s : State) (x : Vector Word 8) : (s.setV x).phase = s.phase := (rfl)
@[simp] theorem State.setV_w (s : State) (x : Vector Word 8) : (s.setV x).w = s.w := (rfl)
@[simp] theorem State.setV_wp (s : State) (x : Vector Word 8) : (s.setV x).wp = s.wp := (rfl)
@[simp] theorem State.setV_work (s : State) (x : Vector Word 8) : (s.setV x).work = s.work := (rfl)
@[simp] theorem State.setV_t (s : State) (x : Vector Word 8) : (s.setV x).t = s.t := (rfl)
@[simp] theorem State.setV_j (s : State) (x : Vector Word 8) : (s.setV x).j = s.j := (rfl)
@[simp] theorem State.setV_inputs (s : State) (x : Vector Word 8) : (s.setV x).inputs = s.inputs := (rfl)
@[simp] theorem State.setV_draws (s : State) (x : Vector Word 8) : (s.setV x).draws = s.draws := (rfl)

/-! `setPending` -/

@[simp] theorem State.setPending_v (s : State) (x : Memory) : (s.setPending x).v = s.v := (rfl)
@[simp] theorem State.setPending_pending (s : State) (x : Memory) : (s.setPending x).pending = x := (rfl)
@[simp] theorem State.setPending_pendingLen (s : State) (x : Memory) : (s.setPending x).pendingLen = s.pendingLen := (rfl)
@[simp] theorem State.setPending_totalBits (s : State) (x : Memory) : (s.setPending x).totalBits = s.totalBits := (rfl)
@[simp] theorem State.setPending_ovf (s : State) (x : Memory) : (s.setPending x).ovf = s.ovf := (rfl)
@[simp] theorem State.setPending_err (s : State) (x : Memory) : (s.setPending x).err = s.err := (rfl)
@[simp] theorem State.setPending_phase (s : State) (x : Memory) : (s.setPending x).phase = s.phase := (rfl)
@[simp] theorem State.setPending_w (s : State) (x : Memory) : (s.setPending x).w = s.w := (rfl)
@[simp] theorem State.setPending_wp (s : State) (x : Memory) : (s.setPending x).wp = s.wp := (rfl)
@[simp] theorem State.setPending_work (s : State) (x : Memory) : (s.setPending x).work = s.work := (rfl)
@[simp] theorem State.setPending_t (s : State) (x : Memory) : (s.setPending x).t = s.t := (rfl)
@[simp] theorem State.setPending_j (s : State) (x : Memory) : (s.setPending x).j = s.j := (rfl)
@[simp] theorem State.setPending_inputs (s : State) (x : Memory) : (s.setPending x).inputs = s.inputs := (rfl)
@[simp] theorem State.setPending_draws (s : State) (x : Memory) : (s.setPending x).draws = s.draws := (rfl)

/-! `setPendingLen` -/

@[simp] theorem State.setPendingLen_v (s : State) (x : BitVec 7) : (s.setPendingLen x).v = s.v := (rfl)
@[simp] theorem State.setPendingLen_pending (s : State) (x : BitVec 7) : (s.setPendingLen x).pending = s.pending := (rfl)
@[simp] theorem State.setPendingLen_pendingLen (s : State) (x : BitVec 7) : (s.setPendingLen x).pendingLen = x := (rfl)
@[simp] theorem State.setPendingLen_totalBits (s : State) (x : BitVec 7) : (s.setPendingLen x).totalBits = s.totalBits := (rfl)
@[simp] theorem State.setPendingLen_ovf (s : State) (x : BitVec 7) : (s.setPendingLen x).ovf = s.ovf := (rfl)
@[simp] theorem State.setPendingLen_err (s : State) (x : BitVec 7) : (s.setPendingLen x).err = s.err := (rfl)
@[simp] theorem State.setPendingLen_phase (s : State) (x : BitVec 7) : (s.setPendingLen x).phase = s.phase := (rfl)
@[simp] theorem State.setPendingLen_w (s : State) (x : BitVec 7) : (s.setPendingLen x).w = s.w := (rfl)
@[simp] theorem State.setPendingLen_wp (s : State) (x : BitVec 7) : (s.setPendingLen x).wp = s.wp := (rfl)
@[simp] theorem State.setPendingLen_work (s : State) (x : BitVec 7) : (s.setPendingLen x).work = s.work := (rfl)
@[simp] theorem State.setPendingLen_t (s : State) (x : BitVec 7) : (s.setPendingLen x).t = s.t := (rfl)
@[simp] theorem State.setPendingLen_j (s : State) (x : BitVec 7) : (s.setPendingLen x).j = s.j := (rfl)
@[simp] theorem State.setPendingLen_inputs (s : State) (x : BitVec 7) : (s.setPendingLen x).inputs = s.inputs := (rfl)
@[simp] theorem State.setPendingLen_draws (s : State) (x : BitVec 7) : (s.setPendingLen x).draws = s.draws := (rfl)

/-! `setTotalBits` -/

@[simp] theorem State.setTotalBits_v (s : State) (x : Word) : (s.setTotalBits x).v = s.v := (rfl)
@[simp] theorem State.setTotalBits_pending (s : State) (x : Word) : (s.setTotalBits x).pending = s.pending := (rfl)
@[simp] theorem State.setTotalBits_pendingLen (s : State) (x : Word) : (s.setTotalBits x).pendingLen = s.pendingLen := (rfl)
@[simp] theorem State.setTotalBits_totalBits (s : State) (x : Word) : (s.setTotalBits x).totalBits = x := (rfl)
@[simp] theorem State.setTotalBits_ovf (s : State) (x : Word) : (s.setTotalBits x).ovf = s.ovf := (rfl)
@[simp] theorem State.setTotalBits_err (s : State) (x : Word) : (s.setTotalBits x).err = s.err := (rfl)
@[simp] theorem State.setTotalBits_phase (s : State) (x : Word) : (s.setTotalBits x).phase = s.phase := (rfl)
@[simp] theorem State.setTotalBits_w (s : State) (x : Word) : (s.setTotalBits x).w = s.w := (rfl)
@[simp] theorem State.setTotalBits_wp (s : State) (x : Word) : (s.setTotalBits x).wp = s.wp := (rfl)
@[simp] theorem State.setTotalBits_work (s : State) (x : Word) : (s.setTotalBits x).work = s.work := (rfl)
@[simp] theorem State.setTotalBits_t (s : State) (x : Word) : (s.setTotalBits x).t = s.t := (rfl)
@[simp] theorem State.setTotalBits_j (s : State) (x : Word) : (s.setTotalBits x).j = s.j := (rfl)
@[simp] theorem State.setTotalBits_inputs (s : State) (x : Word) : (s.setTotalBits x).inputs = s.inputs := (rfl)
@[simp] theorem State.setTotalBits_draws (s : State) (x : Word) : (s.setTotalBits x).draws = s.draws := (rfl)

/-! `setOvf` -/

@[simp] theorem State.setOvf_v (s : State) (x : Bool) : (s.setOvf x).v = s.v := (rfl)
@[simp] theorem State.setOvf_pending (s : State) (x : Bool) : (s.setOvf x).pending = s.pending := (rfl)
@[simp] theorem State.setOvf_pendingLen (s : State) (x : Bool) : (s.setOvf x).pendingLen = s.pendingLen := (rfl)
@[simp] theorem State.setOvf_totalBits (s : State) (x : Bool) : (s.setOvf x).totalBits = s.totalBits := (rfl)
@[simp] theorem State.setOvf_ovf (s : State) (x : Bool) : (s.setOvf x).ovf = x := (rfl)
@[simp] theorem State.setOvf_err (s : State) (x : Bool) : (s.setOvf x).err = s.err := (rfl)
@[simp] theorem State.setOvf_phase (s : State) (x : Bool) : (s.setOvf x).phase = s.phase := (rfl)
@[simp] theorem State.setOvf_w (s : State) (x : Bool) : (s.setOvf x).w = s.w := (rfl)
@[simp] theorem State.setOvf_wp (s : State) (x : Bool) : (s.setOvf x).wp = s.wp := (rfl)
@[simp] theorem State.setOvf_work (s : State) (x : Bool) : (s.setOvf x).work = s.work := (rfl)
@[simp] theorem State.setOvf_t (s : State) (x : Bool) : (s.setOvf x).t = s.t := (rfl)
@[simp] theorem State.setOvf_j (s : State) (x : Bool) : (s.setOvf x).j = s.j := (rfl)
@[simp] theorem State.setOvf_inputs (s : State) (x : Bool) : (s.setOvf x).inputs = s.inputs := (rfl)
@[simp] theorem State.setOvf_draws (s : State) (x : Bool) : (s.setOvf x).draws = s.draws := (rfl)

/-! `setErr` -/

@[simp] theorem State.setErr_v (s : State) (x : ErrCode) : (s.setErr x).v = s.v := (rfl)
@[simp] theorem State.setErr_pending (s : State) (x : ErrCode) : (s.setErr x).pending = s.pending := (rfl)
@[simp] theorem State.setErr_pendingLen (s : State) (x : ErrCode) : (s.setErr x).pendingLen = s.pendingLen := (rfl)
@[simp] theorem State.setErr_totalBits (s : State) (x : ErrCode) : (s.setErr x).totalBits = s.totalBits := (rfl)
@[simp] theorem State.setErr_ovf (s : State) (x : ErrCode) : (s.setErr x).ovf = s.ovf := (rfl)
@[simp] theorem State.setErr_err (s : State) (x : ErrCode) : (s.setErr x).err = x := (rfl)
@[simp] theorem State.setErr_phase (s : State) (x : ErrCode) : (s.setErr x).phase = s.phase := (rfl)
@[simp] theorem State.setErr_w (s : State) (x : ErrCode) : (s.setErr x).w = s.w := (rfl)
@[simp] theorem State.setErr_wp (s : State) (x : ErrCode) : (s.setErr x).wp = s.wp := (rfl)
@[simp] theorem State.setErr_work (s : State) (x : ErrCode) : (s.setErr x).work = s.work := (rfl)
@[simp] theorem State.setErr_t (s : State) (x : ErrCode) : (s.setErr x).t = s.t := (rfl)
@[simp] theorem State.setErr_j (s : State) (x : ErrCode) : (s.setErr x).j = s.j := (rfl)
@[simp] theorem State.setErr_inputs (s : State) (x : ErrCode) : (s.setErr x).inputs = s.inputs := (rfl)
@[simp] theorem State.setErr_draws (s : State) (x : ErrCode) : (s.setErr x).draws = s.draws := (rfl)

/-! `setPhase` -/

@[simp] theorem State.setPhase_v (s : State) (x : Phase) : (s.setPhase x).v = s.v := (rfl)
@[simp] theorem State.setPhase_pending (s : State) (x : Phase) : (s.setPhase x).pending = s.pending := (rfl)
@[simp] theorem State.setPhase_pendingLen (s : State) (x : Phase) : (s.setPhase x).pendingLen = s.pendingLen := (rfl)
@[simp] theorem State.setPhase_totalBits (s : State) (x : Phase) : (s.setPhase x).totalBits = s.totalBits := (rfl)
@[simp] theorem State.setPhase_ovf (s : State) (x : Phase) : (s.setPhase x).ovf = s.ovf := (rfl)
@[simp] theorem State.setPhase_err (s : State) (x : Phase) : (s.setPhase x).err = s.err := (rfl)
@[simp] theorem State.setPhase_phase (s : State) (x : Phase) : (s.setPhase x).phase = x := (rfl)
@[simp] theorem State.setPhase_w (s : State) (x : Phase) : (s.setPhase x).w = s.w := (rfl)
@[simp] theorem State.setPhase_wp (s : State) (x : Phase) : (s.setPhase x).wp = s.wp := (rfl)
@[simp] theorem State.setPhase_work (s : State) (x : Phase) : (s.setPhase x).work = s.work := (rfl)
@[simp] theorem State.setPhase_t (s : State) (x : Phase) : (s.setPhase x).t = s.t := (rfl)
@[simp] theorem State.setPhase_j (s : State) (x : Phase) : (s.setPhase x).j = s.j := (rfl)
@[simp] theorem State.setPhase_inputs (s : State) (x : Phase) : (s.setPhase x).inputs = s.inputs := (rfl)
@[simp] theorem State.setPhase_draws (s : State) (x : Phase) : (s.setPhase x).draws = s.draws := (rfl)

/-! `setW` -/

@[simp] theorem State.setW_v (s : State) (x : Vector Word 68) : (s.setW x).v = s.v := (rfl)
@[simp] theorem State.setW_pending (s : State) (x : Vector Word 68) : (s.setW x).pending = s.pending := (rfl)
@[simp] theorem State.setW_pendingLen (s : State) (x : Vector Word 68) : (s.setW x).pendingLen = s.pendingLen := (rfl)
@[simp] theorem State.setW_totalBits (s : State) (x : Vector Word 68) : (s.setW x).totalBits = s.totalBits := (rfl)
@[simp] theorem State.setW_ovf (s : State) (x : Vector Word 68) : (s.setW x).ovf = s.ovf := (rfl)
@[simp] theorem State.setW_err (s : State) (x : Vector Word 68) : (s.setW x).err = s.err := (rfl)
@[simp] theorem State.setW_phase (s : State) (x : Vector Word 68) : (s.setW x).phase = s.phase := (rfl)
@[simp] theorem State.setW_w (s : State) (x : Vector Word 68) : (s.setW x).w = x := (rfl)
@[simp] theorem State.setW_wp (s : State) (x : Vector Word 68) : (s.setW x).wp = s.wp := (rfl)
@[simp] theorem State.setW_work (s : State) (x : Vector Word 68) : (s.setW x).work = s.work := (rfl)
@[simp] theorem State.setW_t (s : State) (x : Vector Word 68) : (s.setW x).t = s.t := (rfl)
@[simp] theorem State.setW_j (s : State) (x : Vector Word 68) : (s.setW x).j = s.j := (rfl)
@[simp] theorem State.setW_inputs (s : State) (x : Vector Word 68) : (s.setW x).inputs = s.inputs := (rfl)
@[simp] theorem State.setW_draws (s : State) (x : Vector Word 68) : (s.setW x).draws = s.draws := (rfl)

/-! `setWp` -/

@[simp] theorem State.setWp_v (s : State) (x : Vector Word 64) : (s.setWp x).v = s.v := (rfl)
@[simp] theorem State.setWp_pending (s : State) (x : Vector Word 64) : (s.setWp x).pending = s.pending := (rfl)
@[simp] theorem State.setWp_pendingLen (s : State) (x : Vector Word 64) : (s.setWp x).pendingLen = s.pendingLen := (rfl)
@[simp] theorem State.setWp_totalBits (s : State) (x : Vector Word 64) : (s.setWp x).totalBits = s.totalBits := (rfl)
@[simp] theorem State.setWp_ovf (s : State) (x : Vector Word 64) : (s.setWp x).ovf = s.ovf := (rfl)
@[simp] theorem State.setWp_err (s : State) (x : Vector Word 64) : (s.setWp x).err = s.err := (rfl)
@[simp] theorem State.setWp_phase (s : State) (x : Vector Word 64) : (s.setWp x).phase = s.phase := (rfl)
@[simp] theorem State.setWp_w (s : State) (x : Vector Word 64) : (s.setWp x).w = s.w := (rfl)
@[simp] theorem State.setWp_wp (s : State) (x : Vector Word 64) : (s.setWp x).wp = x := (rfl)
@[simp] theorem State.setWp_work (s : State) (x : Vector Word 64) : (s.setWp x).work = s.work := (rfl)
@[simp] theorem State.setWp_t (s : State) (x : Vector Word 64) : (s.setWp x).t = s.t := (rfl)
@[simp] theorem State.setWp_j (s : State) (x : Vector Word 64) : (s.setWp x).j = s.j := (rfl)
@[simp] theorem State.setWp_inputs (s : State) (x : Vector Word 64) : (s.setWp x).inputs = s.inputs := (rfl)
@[simp] theorem State.setWp_draws (s : State) (x : Vector Word 64) : (s.setWp x).draws = s.draws := (rfl)

/-! `setWork` -/

@[simp] theorem State.setWork_v (s : State) (x : Working) : (s.setWork x).v = s.v := (rfl)
@[simp] theorem State.setWork_pending (s : State) (x : Working) : (s.setWork x).pending = s.pending := (rfl)
@[simp] theorem State.setWork_pendingLen (s : State) (x : Working) : (s.setWork x).pendingLen = s.pendingLen := (rfl)
@[simp] theorem State.setWork_totalBits (s : State) (x : Working) : (s.setWork x).totalBits = s.totalBits := (rfl)
@[simp] theorem State.setWork_ovf (s : State) (x : Working) : (s.setWork x).ovf = s.ovf := (rfl)
@[simp] theorem State.setWork_err (s : State) (x : Working) : (s.setWork x).err = s.err := (rfl)
@[simp] theorem State.setWork_phase (s : State) (x : Working) : (s.setWork x).phase = s.phase := (rfl)
@[simp] theorem State.setWork_w (s : State) (x : Working) : (s.setWork x).w = s.w := (rfl)
@[simp] theorem State.setWork_wp (s : State) (x : Working) : (s.setWork x).wp = s.wp := (rfl)
@[simp] theorem State.setWork_work (s : State) (x : Working) : (s.setWork x).work = x := (rfl)
@[simp] theorem State.setWork_t (s : State) (x : Working) : (s.setWork x).t = s.t := (rfl)
@[simp] theorem State.setWork_j (s : State) (x : Working) : (s.setWork x).j = s.j := (rfl)
@[simp] theorem State.setWork_inputs (s : State) (x : Working) : (s.setWork x).inputs = s.inputs := (rfl)
@[simp] theorem State.setWork_draws (s : State) (x : Working) : (s.setWork x).draws = s.draws := (rfl)

/-! `setT` -/

@[simp] theorem State.setT_v (s : State) (x : Word) : (s.setT x).v = s.v := (rfl)
@[simp] theorem State.setT_pending (s : State) (x : Word) : (s.setT x).pending = s.pending := (rfl)
@[simp] theorem State.setT_pendingLen (s : State) (x : Word) : (s.setT x).pendingLen = s.pendingLen := (rfl)
@[simp] theorem State.setT_totalBits (s : State) (x : Word) : (s.setT x).totalBits = s.totalBits := (rfl)
@[simp] theorem State.setT_ovf (s : State) (x : Word) : (s.setT x).ovf = s.ovf := (rfl)
@[simp] theorem State.setT_err (s : State) (x : Word) : (s.setT x).err = s.err := (rfl)
@[simp] theorem State.setT_phase (s : State) (x : Word) : (s.setT x).phase = s.phase := (rfl)
@[simp] theorem State.setT_w (s : State) (x : Word) : (s.setT x).w = s.w := (rfl)
@[simp] theorem State.setT_wp (s : State) (x : Word) : (s.setT x).wp = s.wp := (rfl)
@[simp] theorem State.setT_work (s : State) (x : Word) : (s.setT x).work = s.work := (rfl)
@[simp] theorem State.setT_t (s : State) (x : Word) : (s.setT x).t = x := (rfl)
@[simp] theorem State.setT_j (s : State) (x : Word) : (s.setT x).j = s.j := (rfl)
@[simp] theorem State.setT_inputs (s : State) (x : Word) : (s.setT x).inputs = s.inputs := (rfl)
@[simp] theorem State.setT_draws (s : State) (x : Word) : (s.setT x).draws = s.draws := (rfl)

/-! `setJ` -/

@[simp] theorem State.setJ_v (s : State) (x : Fin 68) : (s.setJ x).v = s.v := (rfl)
@[simp] theorem State.setJ_pending (s : State) (x : Fin 68) : (s.setJ x).pending = s.pending := (rfl)
@[simp] theorem State.setJ_pendingLen (s : State) (x : Fin 68) : (s.setJ x).pendingLen = s.pendingLen := (rfl)
@[simp] theorem State.setJ_totalBits (s : State) (x : Fin 68) : (s.setJ x).totalBits = s.totalBits := (rfl)
@[simp] theorem State.setJ_ovf (s : State) (x : Fin 68) : (s.setJ x).ovf = s.ovf := (rfl)
@[simp] theorem State.setJ_err (s : State) (x : Fin 68) : (s.setJ x).err = s.err := (rfl)
@[simp] theorem State.setJ_phase (s : State) (x : Fin 68) : (s.setJ x).phase = s.phase := (rfl)
@[simp] theorem State.setJ_w (s : State) (x : Fin 68) : (s.setJ x).w = s.w := (rfl)
@[simp] theorem State.setJ_wp (s : State) (x : Fin 68) : (s.setJ x).wp = s.wp := (rfl)
@[simp] theorem State.setJ_work (s : State) (x : Fin 68) : (s.setJ x).work = s.work := (rfl)
@[simp] theorem State.setJ_t (s : State) (x : Fin 68) : (s.setJ x).t = s.t := (rfl)
@[simp] theorem State.setJ_j (s : State) (x : Fin 68) : (s.setJ x).j = x := (rfl)
@[simp] theorem State.setJ_inputs (s : State) (x : Fin 68) : (s.setJ x).inputs = s.inputs := (rfl)
@[simp] theorem State.setJ_draws (s : State) (x : Fin 68) : (s.setJ x).draws = s.draws := (rfl)

/-! `setInputs` -/

@[simp] theorem State.setInputs_v (s : State) (x : List PortSample) : (s.setInputs x).v = s.v := (rfl)
@[simp] theorem State.setInputs_pending (s : State) (x : List PortSample) : (s.setInputs x).pending = s.pending := (rfl)
@[simp] theorem State.setInputs_pendingLen (s : State) (x : List PortSample) : (s.setInputs x).pendingLen = s.pendingLen := (rfl)
@[simp] theorem State.setInputs_totalBits (s : State) (x : List PortSample) : (s.setInputs x).totalBits = s.totalBits := (rfl)
@[simp] theorem State.setInputs_ovf (s : State) (x : List PortSample) : (s.setInputs x).ovf = s.ovf := (rfl)
@[simp] theorem State.setInputs_err (s : State) (x : List PortSample) : (s.setInputs x).err = s.err := (rfl)
@[simp] theorem State.setInputs_phase (s : State) (x : List PortSample) : (s.setInputs x).phase = s.phase := (rfl)
@[simp] theorem State.setInputs_w (s : State) (x : List PortSample) : (s.setInputs x).w = s.w := (rfl)
@[simp] theorem State.setInputs_wp (s : State) (x : List PortSample) : (s.setInputs x).wp = s.wp := (rfl)
@[simp] theorem State.setInputs_work (s : State) (x : List PortSample) : (s.setInputs x).work = s.work := (rfl)
@[simp] theorem State.setInputs_t (s : State) (x : List PortSample) : (s.setInputs x).t = s.t := (rfl)
@[simp] theorem State.setInputs_j (s : State) (x : List PortSample) : (s.setInputs x).j = s.j := (rfl)
@[simp] theorem State.setInputs_inputs (s : State) (x : List PortSample) : (s.setInputs x).inputs = x := (rfl)
@[simp] theorem State.setInputs_draws (s : State) (x : List PortSample) : (s.setInputs x).draws = s.draws := (rfl)

/-! `setDraws` -/

@[simp] theorem State.setDraws_v (s : State) (x : Nat) : (s.setDraws x).v = s.v := (rfl)
@[simp] theorem State.setDraws_pending (s : State) (x : Nat) : (s.setDraws x).pending = s.pending := (rfl)
@[simp] theorem State.setDraws_pendingLen (s : State) (x : Nat) : (s.setDraws x).pendingLen = s.pendingLen := (rfl)
@[simp] theorem State.setDraws_totalBits (s : State) (x : Nat) : (s.setDraws x).totalBits = s.totalBits := (rfl)
@[simp] theorem State.setDraws_ovf (s : State) (x : Nat) : (s.setDraws x).ovf = s.ovf := (rfl)
@[simp] theorem State.setDraws_err (s : State) (x : Nat) : (s.setDraws x).err = s.err := (rfl)
@[simp] theorem State.setDraws_phase (s : State) (x : Nat) : (s.setDraws x).phase = s.phase := (rfl)
@[simp] theorem State.setDraws_w (s : State) (x : Nat) : (s.setDraws x).w = s.w := (rfl)
@[simp] theorem State.setDraws_wp (s : State) (x : Nat) : (s.setDraws x).wp = s.wp := (rfl)
@[simp] theorem State.setDraws_work (s : State) (x : Nat) : (s.setDraws x).work = s.work := (rfl)
@[simp] theorem State.setDraws_t (s : State) (x : Nat) : (s.setDraws x).t = s.t := (rfl)
@[simp] theorem State.setDraws_j (s : State) (x : Nat) : (s.setDraws x).j = s.j := (rfl)
@[simp] theorem State.setDraws_inputs (s : State) (x : Nat) : (s.setDraws x).inputs = s.inputs := (rfl)
@[simp] theorem State.setDraws_draws (s : State) (x : Nat) : (s.setDraws x).draws = x := (rfl)

end Sys2Proof.Machine
end

