-- ==== Sys2Proof/Laws/Ops.lean ====
section
/-! SUPPORT. What each shared operation does, once: the fields it writes, and the fields it leaves. -/

namespace Sys2Proof.Machine

/-! Counting bits (R28, R29). -/

@[simp] theorem State.countBits_totalBits (s : State) (n : Nat) :
    (s.countBits n).totalBits = s.totalBits + BitVec.ofNat 32 n := (rfl)
@[simp] theorem State.countBits_ovf (s : State) (n : Nat) :
    (s.countBits n).ovf = (s.ovf || decide (2 ^ 32 ≤ s.totalBits.toNat + n)) := (rfl)
@[simp] theorem State.countBits_v (s : State) (n : Nat) : (s.countBits n).v = s.v := (rfl)
@[simp] theorem State.countBits_pending (s : State) (n : Nat) : (s.countBits n).pending = s.pending := (rfl)
@[simp] theorem State.countBits_pendingLen (s : State) (n : Nat) : (s.countBits n).pendingLen = s.pendingLen := (rfl)
@[simp] theorem State.countBits_err (s : State) (n : Nat) : (s.countBits n).err = s.err := (rfl)
@[simp] theorem State.countBits_phase (s : State) (n : Nat) : (s.countBits n).phase = s.phase := (rfl)
@[simp] theorem State.countBits_w (s : State) (n : Nat) : (s.countBits n).w = s.w := (rfl)
@[simp] theorem State.countBits_wp (s : State) (n : Nat) : (s.countBits n).wp = s.wp := (rfl)
@[simp] theorem State.countBits_work (s : State) (n : Nat) : (s.countBits n).work = s.work := (rfl)
@[simp] theorem State.countBits_t (s : State) (n : Nat) : (s.countBits n).t = s.t := (rfl)
@[simp] theorem State.countBits_j (s : State) (n : Nat) : (s.countBits n).j = s.j := (rfl)
@[simp] theorem State.countBits_inputs (s : State) (n : Nat) : (s.countBits n).inputs = s.inputs := (rfl)
@[simp] theorem State.countBits_draws (s : State) (n : Nat) : (s.countBits n).draws = s.draws := (rfl)

/-! Recording a fault (R133). -/

@[simp] theorem State.raiseFault_err (s : State) (c : ErrCode) :
    (s.raiseFault c).err = if s.err = .none then c else s.err := by
  unfold State.raiseFault; split <;> simp [*]
@[simp] theorem State.raiseFault_v (s : State) (c : ErrCode) : (s.raiseFault c).v = s.v := by
  unfold State.raiseFault; split <;> rfl
@[simp] theorem State.raiseFault_pending (s : State) (c : ErrCode) : (s.raiseFault c).pending = s.pending := by
  unfold State.raiseFault; split <;> rfl
@[simp] theorem State.raiseFault_pendingLen (s : State) (c : ErrCode) : (s.raiseFault c).pendingLen = s.pendingLen := by
  unfold State.raiseFault; split <;> rfl
@[simp] theorem State.raiseFault_totalBits (s : State) (c : ErrCode) : (s.raiseFault c).totalBits = s.totalBits := by
  unfold State.raiseFault; split <;> rfl
@[simp] theorem State.raiseFault_ovf (s : State) (c : ErrCode) : (s.raiseFault c).ovf = s.ovf := by
  unfold State.raiseFault; split <;> rfl
@[simp] theorem State.raiseFault_phase (s : State) (c : ErrCode) : (s.raiseFault c).phase = s.phase := by
  unfold State.raiseFault; split <;> rfl
@[simp] theorem State.raiseFault_w (s : State) (c : ErrCode) : (s.raiseFault c).w = s.w := by
  unfold State.raiseFault; split <;> rfl
@[simp] theorem State.raiseFault_wp (s : State) (c : ErrCode) : (s.raiseFault c).wp = s.wp := by
  unfold State.raiseFault; split <;> rfl
@[simp] theorem State.raiseFault_work (s : State) (c : ErrCode) : (s.raiseFault c).work = s.work := by
  unfold State.raiseFault; split <;> rfl
@[simp] theorem State.raiseFault_t (s : State) (c : ErrCode) : (s.raiseFault c).t = s.t := by
  unfold State.raiseFault; split <;> rfl
@[simp] theorem State.raiseFault_j (s : State) (c : ErrCode) : (s.raiseFault c).j = s.j := by
  unfold State.raiseFault; split <;> rfl
@[simp] theorem State.raiseFault_inputs (s : State) (c : ErrCode) : (s.raiseFault c).inputs = s.inputs := by
  unfold State.raiseFault; split <;> rfl
@[simp] theorem State.raiseFault_draws (s : State) (c : ErrCode) : (s.raiseFault c).draws = s.draws := by
  unfold State.raiseFault; split <;> rfl

/-! One-byte and eight-byte writes (R42). -/

@[simp] theorem State.memWrite1_v (s : State) (a : Fin 64) (b : Byte) : (s.memWrite1 a b).v = s.v := (rfl)
@[simp] theorem State.memWrite1_pendingLen (s : State) (a : Fin 64) (b : Byte) : (s.memWrite1 a b).pendingLen = s.pendingLen := (rfl)
@[simp] theorem State.memWrite1_totalBits (s : State) (a : Fin 64) (b : Byte) : (s.memWrite1 a b).totalBits = s.totalBits := (rfl)
@[simp] theorem State.memWrite1_ovf (s : State) (a : Fin 64) (b : Byte) : (s.memWrite1 a b).ovf = s.ovf := (rfl)
@[simp] theorem State.memWrite1_err (s : State) (a : Fin 64) (b : Byte) : (s.memWrite1 a b).err = s.err := (rfl)
@[simp] theorem State.memWrite1_phase (s : State) (a : Fin 64) (b : Byte) : (s.memWrite1 a b).phase = s.phase := (rfl)
@[simp] theorem State.memWrite1_w (s : State) (a : Fin 64) (b : Byte) : (s.memWrite1 a b).w = s.w := (rfl)
@[simp] theorem State.memWrite1_wp (s : State) (a : Fin 64) (b : Byte) : (s.memWrite1 a b).wp = s.wp := (rfl)
@[simp] theorem State.memWrite1_work (s : State) (a : Fin 64) (b : Byte) : (s.memWrite1 a b).work = s.work := (rfl)
@[simp] theorem State.memWrite1_t (s : State) (a : Fin 64) (b : Byte) : (s.memWrite1 a b).t = s.t := (rfl)
@[simp] theorem State.memWrite1_j (s : State) (a : Fin 64) (b : Byte) : (s.memWrite1 a b).j = s.j := (rfl)
@[simp] theorem State.memWrite1_inputs (s : State) (a : Fin 64) (b : Byte) : (s.memWrite1 a b).inputs = s.inputs := (rfl)
@[simp] theorem State.memWrite1_draws (s : State) (a : Fin 64) (b : Byte) : (s.memWrite1 a b).draws = s.draws := (rfl)
@[simp] theorem State.memWrite1_pending (s : State) (a : Fin 64) (b : Byte) :
    (s.memWrite1 a b).pending = s.pending.write a.val b := (rfl)

@[simp] theorem State.memWrite8_v (s : State) (x : BitVec 64) : (s.memWrite8 x).v = s.v := (rfl)
@[simp] theorem State.memWrite8_pendingLen (s : State) (x : BitVec 64) : (s.memWrite8 x).pendingLen = s.pendingLen := (rfl)
@[simp] theorem State.memWrite8_totalBits (s : State) (x : BitVec 64) : (s.memWrite8 x).totalBits = s.totalBits := (rfl)
@[simp] theorem State.memWrite8_ovf (s : State) (x : BitVec 64) : (s.memWrite8 x).ovf = s.ovf := (rfl)
@[simp] theorem State.memWrite8_err (s : State) (x : BitVec 64) : (s.memWrite8 x).err = s.err := (rfl)
@[simp] theorem State.memWrite8_phase (s : State) (x : BitVec 64) : (s.memWrite8 x).phase = s.phase := (rfl)
@[simp] theorem State.memWrite8_w (s : State) (x : BitVec 64) : (s.memWrite8 x).w = s.w := (rfl)
@[simp] theorem State.memWrite8_wp (s : State) (x : BitVec 64) : (s.memWrite8 x).wp = s.wp := (rfl)
@[simp] theorem State.memWrite8_work (s : State) (x : BitVec 64) : (s.memWrite8 x).work = s.work := (rfl)
@[simp] theorem State.memWrite8_t (s : State) (x : BitVec 64) : (s.memWrite8 x).t = s.t := (rfl)
@[simp] theorem State.memWrite8_j (s : State) (x : BitVec 64) : (s.memWrite8 x).j = s.j := (rfl)
@[simp] theorem State.memWrite8_inputs (s : State) (x : BitVec 64) : (s.memWrite8 x).inputs = s.inputs := (rfl)
@[simp] theorem State.memWrite8_draws (s : State) (x : BitVec 64) : (s.memWrite8 x).draws = s.draws := (rfl)

/-- Big-endian bytes `56 .. 63` hold the value written. -/
theorem State.memWrite8_read (s : State) (x : BitVec 64) (hm : Memory.wf s.pending = true) (a : Nat) :
    (s.memWrite8 x).pending.read a =
      if h : 56 ≤ a ∧ a < 64 then bytes64 x ⟨a - 56, by omega⟩ else s.pending.read a := by
  have key := Memory.read_foldl_write (List.finRange 8) (fun k => 56 + k.val) (fun k => bytes64 x k) (fun _ => True)
    (fun k _ k' _ h => Fin.ext (by omega)) (fun k _ _ => by omega) s.pending hm
  simp only [if_true] at key
  split
  · rename_i h
    have := key.1 ⟨a - 56, by omega⟩ (List.mem_finRange _) trivial
    simpa [State.memWrite8, Nat.add_sub_cancel' h.1] using this
  · rename_i h
    exact key.2 a fun k _ _ => by omega

theorem State.memWrite8_wf (s : State) (x : BitVec 64) (hm : Memory.wf s.pending = true) :
    Memory.wf (s.memWrite8 x).pending = true :=
  Memory.wf_foldl _ _ _ (fun _ h k => Memory.wf_write h (by simp only [Config.lengthOffset]; omega)) hm

/-! The zero fill (R55(c)). -/

@[simp] theorem State.fill_v (s : State) (lo hi : Nat) : (s.fill lo hi).v = s.v := (rfl)
@[simp] theorem State.fill_pendingLen (s : State) (lo hi : Nat) : (s.fill lo hi).pendingLen = s.pendingLen := (rfl)
@[simp] theorem State.fill_totalBits (s : State) (lo hi : Nat) : (s.fill lo hi).totalBits = s.totalBits := (rfl)
@[simp] theorem State.fill_ovf (s : State) (lo hi : Nat) : (s.fill lo hi).ovf = s.ovf := (rfl)
@[simp] theorem State.fill_err (s : State) (lo hi : Nat) : (s.fill lo hi).err = s.err := (rfl)
@[simp] theorem State.fill_phase (s : State) (lo hi : Nat) : (s.fill lo hi).phase = s.phase := (rfl)
@[simp] theorem State.fill_w (s : State) (lo hi : Nat) : (s.fill lo hi).w = s.w := (rfl)
@[simp] theorem State.fill_wp (s : State) (lo hi : Nat) : (s.fill lo hi).wp = s.wp := (rfl)
@[simp] theorem State.fill_work (s : State) (lo hi : Nat) : (s.fill lo hi).work = s.work := (rfl)
@[simp] theorem State.fill_t (s : State) (lo hi : Nat) : (s.fill lo hi).t = s.t := (rfl)
@[simp] theorem State.fill_j (s : State) (lo hi : Nat) : (s.fill lo hi).j = s.j := (rfl)
@[simp] theorem State.fill_inputs (s : State) (lo hi : Nat) : (s.fill lo hi).inputs = s.inputs := (rfl)
@[simp] theorem State.fill_draws (s : State) (lo hi : Nat) : (s.fill lo hi).draws = s.draws := (rfl)

/-- A fill zeroes the bytes from `lo` up to `hi`, inside the buffer, and leaves the others. -/
theorem State.fill_read (s : State) (lo hi : Nat) (hm : Memory.wf s.pending = true) (a : Nat) :
    (s.fill lo hi).pending.read a = if lo ≤ a ∧ a < hi ∧ a < 64 then 0x00#8 else s.pending.read a := by
  have key := Memory.read_foldl_write (List.finRange 64) (fun k => k.val) (fun _ => 0x00#8)
    (fun k => lo ≤ k.val ∧ k.val < hi) (fun k _ k' _ h => Fin.ext h) (fun k _ _ => k.isLt) s.pending hm
  split
  · rename_i h
    exact key.1 ⟨a, h.2.2⟩ (List.mem_finRange _) ⟨h.1, h.2.1⟩
  · rename_i h
    exact key.2 a fun k _ hk hka => h (hka ▸ ⟨hk.1, hk.2, k.isLt⟩)

theorem State.fill_wf (s : State) (lo hi : Nat) (hm : Memory.wf s.pending = true) :
    Memory.wf (s.fill lo hi).pending = true := by
  refine Memory.wf_foldl _ _ _ (fun m h k => ?_) hm
  split
  · exact Memory.wf_write h k.isLt
  · exact h

/-- A fill of the whole buffer leaves the canonical empty list. -/
theorem State.fill_all (s : State) (hm : Memory.wf s.pending = true) : (s.fill 0 64).pending = [] := by
  refine Memory.ext_wf (State.fill_wf s 0 64 hm) Memory.wf_nil fun a ha => ?_
  rw [State.fill_read s 0 64 hm, if_pos ⟨Nat.zero_le a, ha, ha⟩]
  rfl

/-! Storing a byte at `pending_len` (R55(a)). -/

/-- Inside the buffer the store succeeds, and this is all it does. -/
theorem State.storeNext_eq (s : State) (b : Byte) (h : s.pendingLen.toNat < 64) :
    s.storeNext b = some ((s.setPending (s.pending.write s.pendingLen.toNat b)).setPendingLen (s.pendingLen + 1)) := by
  rw [State.storeNext, dif_pos h]; rfl

theorem State.storeNext_none (s : State) (b : Byte) (h : 64 ≤ s.pendingLen.toNat) : s.storeNext b = none := by
  rw [State.storeNext, dif_neg (by omega)]

/-- The state with a byte stored at `pending_len` and counted. -/
def State.stored (s : State) (b : Byte) : State :=
  (s.setPending (s.pending.write s.pendingLen.toNat b)).setPendingLen (s.pendingLen + 1)

/-- Everything a store can do. -/
theorem State.storeThen_cases (s : State) (b : Byte) (body : State → Host.Outcome State Fault Refusal) :
    (s.pendingLen.toNat < 64 ∧ s.storeThen b body = body (s.stored b)) ∨
      (64 ≤ s.pendingLen.toNat ∧ s.storeThen b body = .fault .pendingOutOfRange) := by
  by_cases h : s.pendingLen.toNat < 64
  · exact .inl ⟨h, by rw [State.storeThen, s.storeNext_eq b h]; rfl⟩
  · exact .inr ⟨by omega, by rw [State.storeThen, s.storeNext_none b (by omega)]⟩

@[simp] theorem State.stored_pending (s : State) (b : Byte) :
    (s.stored b).pending = s.pending.write s.pendingLen.toNat b := (rfl)

theorem State.stored_pendingLen (s : State) (b : Byte) : (s.stored b).pendingLen = s.pendingLen + 1 := (rfl)

/-- Inside the buffer the count rises by one, with no wrap. -/
theorem State.stored_pendingLen_toNat (s : State) (b : Byte) (h : s.pendingLen.toNat < 64) :
    (s.stored b).pendingLen.toNat = s.pendingLen.toNat + 1 := by
  rw [State.stored_pendingLen, BitVec.toNat_add]
  simp only [BitVec.ofNat_eq_ofNat, BitVec.toNat_ofNat]
  omega

@[simp] theorem State.stored_v (s : State) (b : Byte) : (s.stored b).v = s.v := (rfl)
@[simp] theorem State.stored_totalBits (s : State) (b : Byte) : (s.stored b).totalBits = s.totalBits := (rfl)
@[simp] theorem State.stored_ovf (s : State) (b : Byte) : (s.stored b).ovf = s.ovf := (rfl)
@[simp] theorem State.stored_err (s : State) (b : Byte) : (s.stored b).err = s.err := (rfl)
@[simp] theorem State.stored_phase (s : State) (b : Byte) : (s.stored b).phase = s.phase := (rfl)
@[simp] theorem State.stored_w (s : State) (b : Byte) : (s.stored b).w = s.w := (rfl)
@[simp] theorem State.stored_wp (s : State) (b : Byte) : (s.stored b).wp = s.wp := (rfl)
@[simp] theorem State.stored_work (s : State) (b : Byte) : (s.stored b).work = s.work := (rfl)
@[simp] theorem State.stored_t (s : State) (b : Byte) : (s.stored b).t = s.t := (rfl)
@[simp] theorem State.stored_j (s : State) (b : Byte) : (s.stored b).j = s.j := (rfl)
@[simp] theorem State.stored_inputs (s : State) (b : Byte) : (s.stored b).inputs = s.inputs := (rfl)
@[simp] theorem State.stored_draws (s : State) (b : Byte) : (s.stored b).draws = s.draws := (rfl)

/-! Forgetting the transient state (R34, R35). -/

@[simp] theorem State.forgetTransient_v (s : State) : (s.forgetTransient).v = s.v := (rfl)
@[simp] theorem State.forgetTransient_pending (s : State) : (s.forgetTransient).pending = s.pending := (rfl)
@[simp] theorem State.forgetTransient_pendingLen (s : State) : (s.forgetTransient).pendingLen = s.pendingLen := (rfl)
@[simp] theorem State.forgetTransient_totalBits (s : State) : (s.forgetTransient).totalBits = s.totalBits := (rfl)
@[simp] theorem State.forgetTransient_ovf (s : State) : (s.forgetTransient).ovf = s.ovf := (rfl)
@[simp] theorem State.forgetTransient_err (s : State) : (s.forgetTransient).err = s.err := (rfl)
@[simp] theorem State.forgetTransient_phase (s : State) : (s.forgetTransient).phase = s.phase := (rfl)
@[simp] theorem State.forgetTransient_inputs (s : State) : (s.forgetTransient).inputs = s.inputs := (rfl)
@[simp] theorem State.forgetTransient_draws (s : State) : s.forgetTransient.draws = s.draws + 1 := (rfl)

/-! Hardware reset (R150). -/

@[simp] theorem State.hardwareReset_pendingLen (s : State) : s.hardwareReset.pendingLen = 0 := (rfl)
@[simp] theorem State.hardwareReset_totalBits (s : State) : s.hardwareReset.totalBits = 0 := (rfl)
@[simp] theorem State.hardwareReset_ovf (s : State) : s.hardwareReset.ovf = false := (rfl)
@[simp] theorem State.hardwareReset_err (s : State) : s.hardwareReset.err = .none := (rfl)
@[simp] theorem State.hardwareReset_phase (s : State) : s.hardwareReset.phase = .idle := (rfl)
@[simp] theorem State.hardwareReset_inputs (s : State) : s.hardwareReset.inputs = s.inputs := (rfl)
@[simp] theorem State.hardwareReset_draws (s : State) : s.hardwareReset.draws = s.draws + 1 := (rfl)
@[simp] theorem State.hardwareReset_pending (s : State) : s.hardwareReset.pending = freePending s.draws := (rfl)

theorem freePending_wf (n : Nat) : Memory.wf (freePending n) = true := by
  unfold freePending
  exact Memory.wf_foldl _ _ _ (fun _ h k => Memory.wf_write h k.isLt) Memory.wf_nil

/-! The lifecycle test (R80, R131). -/

theorem State.whenActive_active (s : State) (body : State → Host.Outcome State Fault Refusal)
    (h : s.phase = .active) : s.whenActive body = body s := if_pos h

theorem State.whenActive_not (s : State) (body : State → Host.Outcome State Fault Refusal)
    (h : s.phase ≠ .active) : s.whenActive body = .next (s.raiseFault .seqError) := if_neg h

/-! The bytes of the buffer as a block. -/

@[simp] theorem State.block_getElem (s : State) (a : Nat) (h : a < 64) : s.block[a] = s.pending.read a := by
  simp [State.block, State.memRead1]

end Sys2Proof.Machine
end

