-- ==== Sys2Proof/Laws/Compress.lean ====
section
/-! SUPPORT. What each micro-operation leaves alone, and what a compression leaves alone: everything but `V` and the
transient state (43_compression_rounds.md R125). -/

namespace Sys2Proof.Machine

@[simp] theorem execMicro_pending (op : MicroOp) (s : State) : (execMicro op s).pending = s.pending := by
  cases op <;> rfl
@[simp] theorem execMicro_pendingLen (op : MicroOp) (s : State) : (execMicro op s).pendingLen = s.pendingLen := by
  cases op <;> rfl
@[simp] theorem execMicro_totalBits (op : MicroOp) (s : State) : (execMicro op s).totalBits = s.totalBits := by
  cases op <;> rfl
@[simp] theorem execMicro_ovf (op : MicroOp) (s : State) : (execMicro op s).ovf = s.ovf := by
  cases op <;> rfl
@[simp] theorem execMicro_err (op : MicroOp) (s : State) : (execMicro op s).err = s.err := by
  cases op <;> rfl
@[simp] theorem execMicro_phase (op : MicroOp) (s : State) : (execMicro op s).phase = s.phase := by
  cases op <;> rfl
@[simp] theorem execMicro_inputs (op : MicroOp) (s : State) : (execMicro op s).inputs = s.inputs := by
  cases op <;> rfl
@[simp] theorem execMicro_draws (op : MicroOp) (s : State) : (execMicro op s).draws = s.draws := by
  cases op <;> rfl

/-- Only FBK writes `V` (R23). -/
theorem execMicro_v (op : MicroOp) (s : State) (h : op ≠ .fbk) : (execMicro op s).v = s.v := by
  cases op <;> first | rfl | exact absurd rfl h

@[simp] theorem runMicro_nil (s : State) : runMicro [] s = s := rfl

@[simp] theorem runMicro_cons (op : MicroOp) (ops : List MicroOp) (s : State) :
    runMicro (op :: ops) s = runMicro ops (execMicro op s) := rfl

theorem runMicro_append (ops ops' : List MicroOp) (s : State) :
    runMicro (ops ++ ops') s = runMicro ops' (runMicro ops s) := List.foldl_append

/-- What every micro-operation leaves alone, a sequence of them leaves alone. -/
theorem runMicro_frame {α : Type} (f : State → α) (hf : ∀ op s, f (execMicro op s) = f s) (ops : List MicroOp)
    (s : State) : f (runMicro ops s) = f s := by
  induction ops generalizing s with
  | nil => rfl
  | cons op ops ih => rw [runMicro_cons, ih, hf]

@[simp] theorem runMicro_pending (ops : List MicroOp) (s : State) : (runMicro ops s).pending = s.pending :=
  runMicro_frame (·.pending) execMicro_pending ops s
@[simp] theorem runMicro_pendingLen (ops : List MicroOp) (s : State) : (runMicro ops s).pendingLen = s.pendingLen :=
  runMicro_frame (·.pendingLen) execMicro_pendingLen ops s
@[simp] theorem runMicro_totalBits (ops : List MicroOp) (s : State) : (runMicro ops s).totalBits = s.totalBits :=
  runMicro_frame (·.totalBits) execMicro_totalBits ops s
@[simp] theorem runMicro_ovf (ops : List MicroOp) (s : State) : (runMicro ops s).ovf = s.ovf :=
  runMicro_frame (·.ovf) execMicro_ovf ops s
@[simp] theorem runMicro_err (ops : List MicroOp) (s : State) : (runMicro ops s).err = s.err :=
  runMicro_frame (·.err) execMicro_err ops s
@[simp] theorem runMicro_phase (ops : List MicroOp) (s : State) : (runMicro ops s).phase = s.phase :=
  runMicro_frame (·.phase) execMicro_phase ops s
@[simp] theorem runMicro_inputs (ops : List MicroOp) (s : State) : (runMicro ops s).inputs = s.inputs :=
  runMicro_frame (·.inputs) execMicro_inputs ops s
@[simp] theorem runMicro_draws (ops : List MicroOp) (s : State) : (runMicro ops s).draws = s.draws :=
  runMicro_frame (·.draws) execMicro_draws ops s

/-- What `V` is after a compression: what FBK left there. -/
theorem State.compress_v (s : State) : s.compress.v = (runMicro compressOps s).v := by
  simp only [State.compress, State.forgetTransient_v]

@[simp] theorem State.compress_pending (s : State) : s.compress.pending = s.pending := by
  simp only [State.compress, State.forgetTransient_pending, runMicro_pending]
@[simp] theorem State.compress_pendingLen (s : State) : s.compress.pendingLen = s.pendingLen := by
  simp only [State.compress, State.forgetTransient_pendingLen, runMicro_pendingLen]
@[simp] theorem State.compress_totalBits (s : State) : s.compress.totalBits = s.totalBits := by
  simp only [State.compress, State.forgetTransient_totalBits, runMicro_totalBits]
@[simp] theorem State.compress_ovf (s : State) : s.compress.ovf = s.ovf := by
  simp only [State.compress, State.forgetTransient_ovf, runMicro_ovf]
@[simp] theorem State.compress_err (s : State) : s.compress.err = s.err := by
  simp only [State.compress, State.forgetTransient_err, runMicro_err]
@[simp] theorem State.compress_phase (s : State) : s.compress.phase = s.phase := by
  simp only [State.compress, State.forgetTransient_phase, runMicro_phase]
@[simp] theorem State.compress_inputs (s : State) : s.compress.inputs = s.inputs := by
  simp only [State.compress, State.forgetTransient_inputs, runMicro_inputs]
@[simp] theorem State.compress_draws (s : State) : s.compress.draws = s.draws + 1 := by
  simp only [State.compress, State.forgetTransient_draws, runMicro_draws]

/-- Following a run of indexed micro-operations: what holds before number 0 and is carried from each number to the next
holds at the end. -/
theorem runMicro_finRange (n : Nat) (op : Fin n → MicroOp) (P : Nat → State → Prop) (s : State) (h0 : P 0 s)
    (hstep : ∀ (k : Fin n) (t : State), P k.val t → P (k.val + 1) (execMicro (op k) t)) :
    P n (runMicro ((List.finRange n).map op) s) := by
  induction n with
  | zero => simpa using h0
  | succ n ih =>
    rw [List.finRange_succ_last, List.map_append, runMicro_append, List.map_map]
    exact hstep (Fin.last n) _ (ih (op ∘ Fin.castSucc) fun k t h => hstep k.castSucc t h)

/-- A compression stage by stage. Cite this rather than unfolding the list: the kernel then never compares two long runs. -/
theorem runMicro_compressOps (s : State) :
    runMicro compressOps s = runMicro [.fbk] (runMicro ((List.finRange 64).map .rnd) (runMicro [.ldv]
      (runMicro ((List.finRange 64).map .xpp) (runMicro ((List.finRange 52).map .xpw)
        (runMicro ((List.finRange 16).map .ldw) s))))) := by
  rw [compressOps, expandOps, runMicro_append, runMicro_append, runMicro_append, runMicro_append, runMicro_append]

/-! The schedule as a list. -/

theorem scheduleW_length (block : Vector Byte 64) (n : Nat) : (scheduleW block n).length = 16 + n := by
  induction n with
  | zero => simp [scheduleW, loadedWords]
  | succ n ih => simp [scheduleW, ih]; omega

/-- A word of the schedule never changes once it is there. -/
theorem scheduleW_prefix (block : Vector Byte 64) (n m i : Nat) (h : n ≤ m) (hi : i < 16 + n) :
    (scheduleW block m).getD i 0 = (scheduleW block n).getD i 0 := by
  induction m with
  | zero => rw [show n = 0 by omega]
  | succ m ih =>
    by_cases hn : n = m + 1
    · rw [hn]
    · rw [← ih (by omega), scheduleW, List.getD_append _ _ _ _ (by rw [scheduleW_length]; omega)]

end Sys2Proof.Machine
end

