-- ==== Sys2Proof/Laws/Commands.lean ====
section
/-! SUPPORT. Everything each command can do, once: one case for each path through its meaning (40_commands_init_absorb.md
R80 to R83, 41_finalize_padding.md R90), which later proofs cite instead of unfolding the meaning. -/

namespace Sys2Proof.Machine

theorem exec_nop (s : State) : exec .nop s = .next s := (rfl)

theorem exec_init (s : State) : exec .init s = .next s.initialise := (rfl)

/-! What INIT writes, and what it leaves: the transient state and the model's own fields. -/

@[simp] theorem State.initialise_v (s : State) : s.initialise.v = Config.iv := by
  simp [State.initialise]
@[simp] theorem State.initialise_pendingLen (s : State) : s.initialise.pendingLen = 0 := by
  simp [State.initialise]
@[simp] theorem State.initialise_totalBits (s : State) : s.initialise.totalBits = 0 := by
  simp [State.initialise]
@[simp] theorem State.initialise_ovf (s : State) : s.initialise.ovf = false := by
  simp [State.initialise]
@[simp] theorem State.initialise_err (s : State) : s.initialise.err = .none := by
  simp [State.initialise]
@[simp] theorem State.initialise_phase (s : State) : s.initialise.phase = .active := by
  simp [State.initialise]
@[simp] theorem State.initialise_w (s : State) : s.initialise.w = s.w := by
  simp [State.initialise]
@[simp] theorem State.initialise_wp (s : State) : s.initialise.wp = s.wp := by
  simp [State.initialise]
@[simp] theorem State.initialise_work (s : State) : s.initialise.work = s.work := by
  simp [State.initialise]
@[simp] theorem State.initialise_t (s : State) : s.initialise.t = s.t := by
  simp [State.initialise]
@[simp] theorem State.initialise_j (s : State) : s.initialise.j = s.j := by
  simp [State.initialise]
@[simp] theorem State.initialise_inputs (s : State) : s.initialise.inputs = s.inputs := by
  simp [State.initialise]
@[simp] theorem State.initialise_draws (s : State) : s.initialise.draws = s.draws := by
  simp [State.initialise]

@[simp] theorem State.initialise_pending (s : State) : s.initialise.pending = (s.fill 0 64).pending := by
  simp [State.initialise, State.fill]

/-- From a canonical buffer INIT leaves the empty list: every byte is 0x00. -/
theorem State.initialise_pending_nil (s : State) (hm : Memory.wf s.pending = true) : s.initialise.pending = [] := by
  rw [State.initialise_pending, State.fill_all s hm]

/-- Everything ABSORB can do. -/
theorem execAbsorb_cases (b : Byte) (s : State) :
    (s.phase ≠ .active ∧ exec (.absorb b) s = .next (s.raiseFault .seqError)) ∨
    (s.phase = .active ∧ s.pendingLen.toNat < 63 ∧ exec (.absorb b) s = .next (s.stored b)) ∨
    (s.phase = .active ∧ s.pendingLen.toNat = 63 ∧
      exec (.absorb b) s = .next (((s.stored b).compress.countBits 512).setPendingLen 0)) ∨
    (s.phase = .active ∧ 64 ≤ s.pendingLen.toNat ∧ exec (.absorb b) s = .fault .pendingOutOfRange) := by
  by_cases hp : s.phase = .active
  · refine .inr ?_
    simp only [exec, execAbsorb, State.whenActive_active _ _ hp]
    rcases s.storeThen_cases b fun s => .next s.absorbBlockIfFull with ⟨hlt, he⟩ | ⟨hge, he⟩
    · have hlen := s.stored_pendingLen_toNat b hlt
      rw [he]
      by_cases h63 : s.pendingLen.toNat = 63
      · have hfull : (s.stored b).pendingLen = 64#7 := BitVec.eq_of_toNat_eq (by rw [hlen, h63]; rfl)
        exact .inr (.inl ⟨hp, h63, congrArg _ (if_pos hfull)⟩)
      · have hroom : (s.stored b).pendingLen ≠ 64#7 := fun h => by
          rw [h] at hlen
          simp at hlen
          omega
        exact .inl ⟨hp, by omega, congrArg _ (if_neg hroom)⟩
    · exact .inr (.inr ⟨hp, hge, he⟩)
  · exact .inl ⟨hp, by rw [exec, execAbsorb, State.whenActive_not _ _ hp]⟩

/-- Everything FINALIZE can do. -/
theorem execFinalize_cases (s : State) :
    (s.phase ≠ .active ∧ exec .finalize s = .next (s.raiseFault .seqError)) ∨
    (s.phase = .active ∧ s.countTail.ovf = true ∧
      exec .finalize s = .next ((s.countTail.setPhase .done).raiseFault .inputTooLarge)) ∨
    (s.phase = .active ∧ s.countTail.ovf = false ∧ s.pendingLen.toNat < 64 ∧
      exec .finalize s = .next (s.countTail.stored Config.marker).padFirstBlock.padLastBlock) ∨
    (s.phase = .active ∧ s.countTail.ovf = false ∧ 64 ≤ s.pendingLen.toNat ∧
      exec .finalize s = .fault .pendingOutOfRange) := by
  by_cases hp : s.phase = .active
  · refine .inr ?_
    simp only [exec, execFinalize, State.whenActive_active _ _ hp]
    by_cases ho : s.countTail.ovf = true
    · exact .inl ⟨hp, ho, if_pos ho⟩
    · rw [if_neg ho]
      have ho' : s.countTail.ovf = false := by simpa using ho
      rcases s.countTail.storeThen_cases Config.marker fun s => .next s.padFirstBlock.padLastBlock with
        ⟨hlt, he⟩ | ⟨hge, he⟩
      · exact .inr (.inl ⟨hp, ho', hlt, he⟩)
      · exact .inr (.inr ⟨hp, ho', hge, he⟩)
  · exact .inl ⟨hp, by rw [exec, execFinalize, State.whenActive_not _ _ hp]⟩

theorem State.countTail_ovf (s : State) :
    s.countTail.ovf = (s.ovf || decide (2 ^ 32 ≤ s.totalBits.toNat + 8 * s.pendingLen.toNat)) := (rfl)

/-- Step 3 of FINALIZE is taken exactly when 56 or more bytes were pending (R90, R91). -/
theorem State.padFirstBlock_pos (s : State) (h : 56 < s.pendingLen.toNat) :
    s.padFirstBlock = ((s.fill s.pendingLen.toNat 64).compress).setPendingLen 0 := if_pos h

theorem State.padFirstBlock_neg (s : State) (h : s.pendingLen.toNat ≤ 56) : s.padFirstBlock = s :=
  if_neg (Nat.not_lt.mpr h)

/-! What the steps of FINALIZE leave alone. -/

@[simp] theorem State.countTail_v (s : State) : s.countTail.v = s.v := (rfl)
@[simp] theorem State.countTail_pending (s : State) : s.countTail.pending = s.pending := (rfl)
@[simp] theorem State.countTail_pendingLen (s : State) : s.countTail.pendingLen = s.pendingLen := (rfl)
@[simp] theorem State.countTail_err (s : State) : s.countTail.err = s.err := (rfl)
@[simp] theorem State.countTail_phase (s : State) : s.countTail.phase = s.phase := (rfl)
@[simp] theorem State.countTail_w (s : State) : s.countTail.w = s.w := (rfl)
@[simp] theorem State.countTail_wp (s : State) : s.countTail.wp = s.wp := (rfl)
@[simp] theorem State.countTail_work (s : State) : s.countTail.work = s.work := (rfl)
@[simp] theorem State.countTail_t (s : State) : s.countTail.t = s.t := (rfl)
@[simp] theorem State.countTail_j (s : State) : s.countTail.j = s.j := (rfl)
@[simp] theorem State.countTail_inputs (s : State) : s.countTail.inputs = s.inputs := (rfl)
@[simp] theorem State.countTail_draws (s : State) : s.countTail.draws = s.draws := (rfl)

@[simp] theorem State.padFirstBlock_totalBits (s : State) : s.padFirstBlock.totalBits = s.totalBits := by
  unfold State.padFirstBlock; split <;> simp
@[simp] theorem State.padFirstBlock_ovf (s : State) : s.padFirstBlock.ovf = s.ovf := by
  unfold State.padFirstBlock; split <;> simp
@[simp] theorem State.padFirstBlock_err (s : State) : s.padFirstBlock.err = s.err := by
  unfold State.padFirstBlock; split <;> simp
@[simp] theorem State.padFirstBlock_phase (s : State) : s.padFirstBlock.phase = s.phase := by
  unfold State.padFirstBlock; split <;> simp
@[simp] theorem State.padFirstBlock_inputs (s : State) : s.padFirstBlock.inputs = s.inputs := by
  unfold State.padFirstBlock; split <;> simp

@[simp] theorem State.padLastBlock_totalBits (s : State) : s.padLastBlock.totalBits = s.totalBits := by
  simp [State.padLastBlock]
@[simp] theorem State.padLastBlock_ovf (s : State) : s.padLastBlock.ovf = s.ovf := by
  simp [State.padLastBlock]
@[simp] theorem State.padLastBlock_err (s : State) : s.padLastBlock.err = s.err := by
  simp [State.padLastBlock]
@[simp] theorem State.padLastBlock_inputs (s : State) : s.padLastBlock.inputs = s.inputs := by
  simp [State.padLastBlock]
@[simp] theorem State.padLastBlock_phase (s : State) : s.padLastBlock.phase = .done := (rfl)
@[simp] theorem State.padLastBlock_pendingLen (s : State) : s.padLastBlock.pendingLen = 0 := (rfl)

end Sys2Proof.Machine
end

