-- ==== Sys2Proof/Laws/PerInstr.lean ====
section
/-! SUPPORT. A statement about every instruction, one lemma for each constructor: a command's canonical word carries the
operation code and the opcode-table row of that command (30_encoding.md R62). -/

namespace Sys2Proof.Laws.RowMatch

/-- The canonical word selects the row that bears the command's mnemonic, and its mask covers the operation code. -/
def Statement (i : Instr) : Prop :=
  ∃ r ∈ opcodeRows, r.mnemonic = i.mnemonic ∧ r.selectedBy (encode i) = true ∧
    r.pattern.extractLsb' 8 2 = opField (encode i)

theorem nop : Statement .nop := ⟨⟨"NOP", 0x000#10, 0x300#10⟩, by decide, by decide, by decide, by decide⟩

theorem init : Statement .init := ⟨⟨"INIT", 0x100#10, 0x300#10⟩, by decide, by decide, by decide, by decide⟩

theorem absorb (b : Byte) : Statement (.absorb b) := by
  refine ⟨⟨"ABSORB", 0x200#10, 0x300#10⟩, by decide, rfl, ?_, ?_⟩ <;> revert b <;> decide

theorem finalize : Statement .finalize :=
  ⟨⟨"FINALIZE", 0x300#10, 0x300#10⟩, by decide, by decide, by decide, by decide⟩

end Sys2Proof.Laws.RowMatch
end

