-- ==== Sys2Proof/Laws/Script.lean ====
section
/-! SUPPORT. How a script line falls into words (30_encoding.md R66): what `lineWords` makes of a word, a list of byte
operands, a comment, and a quoted text. Proofs about scripts cite these and do not unfold the reader. -/

namespace Sys2Proof.Machine

/-- A character that neither ends a word nor opens a quotation. -/
def plainChar (c : Char) : Bool :=
  decide (c ≠ ';') && decide (c ≠ ' ') && decide (c ≠ '\t') && decide (c ≠ '\'') && decide (c ≠ '"')

/-- What may stand after the last word of a line: nothing, or a comment, with a blank before it or not. -/
def EndsLine (r : List Char) : Prop := r = [] ∨ (∃ c, r = ';' :: c) ∨ ∃ c, r = ' ' :: ';' :: c

theorem lineWords_plain (t : List Char) (ht : t.all plainChar = true) (cur rest : List Char) :
    lineWords .plain cur (t ++ rest) = lineWords .plain (t.reverse ++ cur) rest := by
  induction t generalizing cur with
  | nil => rfl
  | cons c t ih =>
    simp only [List.all_cons, plainChar, Bool.and_eq_true, decide_eq_true_eq] at ht
    obtain ⟨⟨⟨⟨⟨h1, h2⟩, h3⟩, h4⟩, h5⟩, ht⟩ := ht
    simp only [List.cons_append, lineWords, h1, h2, h3, h4, h5, if_false, or_self]
    rw [ih ht]; simp

theorem lineWords_blank (w rest : List Char) (hw : w ≠ []) :
    lineWords .plain w.reverse (' ' :: rest) = w :: lineWords .plain [] rest := by
  simp [lineWords, flushWord, hw]

theorem lineWords_end (w rest : List Char) (hw : w ≠ []) (hr : EndsLine rest) :
    lineWords .plain w.reverse rest = [w] := by
  rcases hr with rfl | ⟨r, rfl⟩ | ⟨r, rfl⟩ <;> simp [lineWords, flushWord, hw]

theorem lineWords_one (m rest : List Char) (hm : m ≠ []) (hp : m.all plainChar = true) (hr : EndsLine rest) :
    lineWords .plain [] (m ++ rest) = [m] := by
  rw [lineWords_plain m hp, List.append_nil, lineWords_end m rest hm hr]

theorem lineWords_inText (text : List Char) (h : '"' ∉ text) (cur : List Char) :
    lineWords .inText cur (text ++ ['"']) = [cur.reverse ++ text ++ ['"']] := by
  induction text generalizing cur with
  | nil => simp [lineWords, flushWord]
  | cons c t ih =>
    simp only [List.mem_cons, not_or] at h
    simp only [List.cons_append, lineWords, if_neg (Ne.symm h.1)]
    rw [ih h.2]; simp

/-- Every text of a byte is one word, reads as the byte, and is no text operand. -/
theorem byteTexts_spec : ∀ b : Byte, ∀ t ∈ byteTexts b,
    (t.all plainChar = true ∨ t = ['\'', Char.ofNat b.toNat, '\'']) ∧ t ≠ [] ∧ readByte t = some b.toNat ∧
      readText t = none := by
  decide +kernel

theorem lineWords_byteText (b : Byte) (t : List Char) (ht : t ∈ byteTexts b) (cur rest : List Char) :
    lineWords .plain cur (t ++ rest) = lineWords .plain (t.reverse ++ cur) rest := by
  rcases (byteTexts_spec b t ht).1 with h | rfl
  · exact lineWords_plain t h cur rest
  · rfl

/-- A mnemonic and byte operands, each after a blank, are the words of the line. -/
theorem lineWords_operands (m : List Char) (hm : m ≠ []) (hp : m.all plainChar = true) (ps : List (Byte × List Char))
    (h : ∀ p ∈ ps, p.2 ∈ byteTexts p.1) (rest : List Char) (hr : EndsLine rest) :
    lineWords .plain [] (m ++ (ps.flatMap (fun p => ' ' :: p.2) ++ rest)) = m :: ps.map Prod.snd := by
  rw [lineWords_plain m hp, List.append_nil]
  clear hp
  induction ps generalizing m with
  | nil => simpa using lineWords_end m rest hm hr
  | cons p ps ih =>
    have ht := h p (by simp)
    simp only [List.flatMap_cons, List.cons_append, List.append_assoc, List.map_cons]
    rw [lineWords_blank m _ hm, lineWords_byteText _ _ ht, List.append_nil,
      ih p.2 (byteTexts_spec _ _ ht).2.1 fun q hq => h q (by simp [hq])]

end Sys2Proof.Machine
end

