-- ==== Sys2Proof/Tests/Slice0.lean ====
section
/-! SUPPORT. Tests. Expected values are those the spec prints (section 9 of 95_test_vectors.md: scenarios S1 to S4, and the
worked examples of the rules) or words written out bit by bit from R61 and R62. Then, for each statement with hypotheses, a
witness that meets them together. -/

namespace Sys2Proof.Tests

open Sys2Proof Sys2Proof.Machine

/-! Helpers. -/

/-- A small state: phase, fault, fill, counter, carry; the rest as after power-on reset. -/
def small (phase : Phase) (err : ErrCode) (len : BitVec 7) (bits : Word) (ovf : Bool) : State :=
  { State.reset with phase := phase, err := err, pendingLen := len, totalBits := bits, ovf := ovf }

/-- The state INIT leaves from reset (R37). -/
def opened : State := { small .active .none 0 0 false with v := Config.iv }

/-- The fixture of S2: one byte below the carry, `pending[0..62] = 0x61`, `V` = IV. -/
def fixture : State :=
  { small .active .none 63 0xfffffe00 false with
    v := Config.iv, pending := (List.range 63).map fun a => (a, 0x61#8) }

/-- A state with something in every persistent element, for frames. -/
def filled (phase : Phase) (len : BitVec 7) : State :=
  { small phase .none len 0x400 false with
    v := Vector.replicate 8 0xffffffff, pending := [(0, 0x01#8), (63, 0xff#8)] }

/-- Something computed from the next state of a step on a word of the opcode table, if there is one. -/
def after {α : Type} (s : State) (w : Nat) (f : State → α) : Option α :=
  match step (s.withFetchWord 16 w) with
  | .next t => some (f t)
  | .fault _ => none
  | .refused _ => none

/-! Well-formedness: an ill-formed term for each check. -/

theorem test_wordFits : wordFits 0x3ff = true ∧ wordFits 0x400 = false := by decide

theorem test_byteFits : byteFits 255 = true ∧ byteFits 256 = false := by decide

theorem test_charFits : charFits 'a' = true ∧ charFits (Char.ofNat 233) = false := by decide

theorem test_line_wellFormed :
    (ScriptLine.absorb 256).wellFormed = false ∧ (ScriptLine.absorbN [0, 256]).wellFormed = false ∧
    (ScriptLine.absorbS ['a', Char.ofNat 233]).wellFormed = false ∧ (ScriptLine.hash [255, 300]).wellFormed = false ∧
    (ScriptLine.absorb 255).wellFormed = true := by decide

theorem test_wide_word_refused :
    decodeNat 0x400 = .error .wordTooWide ∧ decodeTableWord 16 0x661 = none := ⟨rfl, rfl⟩

/-! Decoding: words written out from R61 and R62. -/

theorem test_decode_nop : decode 0b00_00000000#10 = .nop ∧ decode 0b00_11000011#10 = .nop := by decide

theorem test_decode_init : decode 0b01_00000000#10 = .init ∧ decode 0b01_11111111#10 = .init := by decide

theorem test_decode_absorb :
    decode 0b10_01100001#10 = .absorb 0x61#8 ∧ decode 0b10_10000000#10 = .absorb 0x80#8 := by decide

theorem test_decode_finalize : decode 0b11_00000000#10 = .finalize ∧ decode 0b11_10101010#10 = .finalize := by decide

theorem test_table_words :
    decodeTableWord 16 0x000 = some .nop ∧ decodeTableWord 16 0x100 = some .init ∧
    decodeTableWord 16 0x2ff = some (.absorb 0xff#8) ∧ decodeTableWord 16 0x300 = some .finalize := by decide

/-! Scripts (R66, R67). -/

theorem test_script_lines :
    assembleLine "NOP ; comment".toList = .ok [.nop] ∧ assembleLine "; only a comment".toList = .ok [] ∧
    assembleLine "ABSORB 'a'".toList = .ok [.absorb 0x61#8] ∧ assembleLine "ABSORB 255".toList = .ok [.absorb 0xff#8] ∧
    assembleLine "ABSORBS \"xy\"".toList = .ok [.absorb 0x78#8, .absorb 0x79#8] ∧
    assembleLine "HASH 1 0x02".toList = .ok [.init, .absorb 1, .absorb 2, .finalize] := by decide +kernel

/-- The texts the spec is silent on (log entry 17): a character with no ASCII code, and a quote inside a text. -/
theorem test_script_choices :
    assembleLine ("HASH \"".toList ++ [Char.ofNat 233, '"']) = .error .badOperand ∧
    assembleLine ("ABSORBS \"".toList ++ [Char.ofNat 233, '"']) = .error .operandOutOfRange ∧
    assembleLine "ABSORBS \"a\"b\"".toList = .ok [.absorb 0x61#8, .absorb 0x22#8, .absorb 0x62#8] := by decide +kernel

theorem test_script_refusals :
    assembleLine "ABSORB 256".toList = .error .operandOutOfRange ∧
    assembleLine "nop".toList = .error .unknownMnemonic ∧ assembleLine "INIT 0".toList = .error .badOperand := by
  decide +kernel

/-! Primitives. -/

theorem test_rotl : rotl 0x7a879d8a 16 = 0x9d8a7a87 ∧ rotl 0x80000001 1 = 0x00000003 := by decide

theorem test_p1 : p1 0x80000000 = 0x80404000 ∧ p1 0x20004020 = 0x10005000 := by decide

theorem test_iv :
    Config.iv.toList = [0x7380166f#32, 0x4914b2b9#32, 0x172442d7#32, 0xda8a0600#32, 0xa96f30bc#32, 0x163138aa#32,
      0xe38dee4d#32, 0xb0fb0e4e#32] := by decide

/-- The worked example of R101. -/
theorem test_ldw :
    (ldw 0 { State.reset with pending := [(0, 0x61#8), (1, 0x62#8), (2, 0x63#8), (3, 0x80#8)] }).w[0] = 0x61626380 := by
  decide

/-- The worked examples of R102 and R103, and the ends of the tables in 95_test_vectors.md section 3. -/
theorem test_schedule :
    let w := scheduleW (onlyPadBlock (Vector.replicate 64 0) 0 0) 52
    w.getD 16 0 = 0x80404000 ∧ w.getD 19 0 = 0x10005000 ∧ w.getD 67 0 = 0x709210d5 := by decide +kernel

/-- The worked example of R118. -/
theorem test_round_zero :
    round 0 0x80000000 0x80000000 (loadWorking Config.iv) =
      ⟨0xd88b5dab, 0x7380166f, 0x29657292, 0x172442d7, 0x2384b28f, 0xa96f30bc, 0xc550b189, 0xe38dee4d⟩ := by decide

/-! Commands: one step each. -/

/-- S1 rows 3 and 5. -/
theorem test_nop :
    after (small .idle .seqError 0 0 false) 0x000 State.status = some 0x0004 ∧
    after opened 0x055 State.status = some 0x0001 := by decide +kernel

/-- S1 row 4 and S2 row 5. -/
theorem test_init :
    after State.reset 0x100 (fun t => (t.status, t.v)) = some (0x0001, Config.iv) ∧
    after (small .done .inputTooLarge 1 8 true) 0x1ff (fun t => (t.status, t.totalBits)) = some (0x0001, 0) := by
  decide +kernel

/-- S1 rows 1, 6 and 9. -/
theorem test_absorb :
    after State.reset 0x261 State.status = some 0x0004 ∧
    after opened 0x261 (fun t => (t.status, t.pending, t.v)) = some (0x0101, [(0, 0x61#8)], Config.iv) ∧
    after (small .done .none 0 0 false) 0x262 State.status = some 0x0006 := by decide +kernel

/-- S2 row 1: the block fills, and the counter carries out. -/
theorem test_absorb_full_block :
    after fixture 0x261 (fun t => (t.status, t.totalBits, t.v[0], t.v[7])) =
      some (0x0011, 0, 0xa5136b61, 0xf25a078f) := by decide +kernel

/-- S1 row 12: the digest of the empty message. -/
theorem test_finalize_empty :
    after opened 0x300 (fun t => (t.status, t.digest)) =
      some (0x0022, 0x1ab21d8355cfa17f8e61194831e81a8f22bec8c728fefb747ed035eb5082aa2b) := by decide +kernel

/-- S2 row 3: the fault INPUT_TOO_LARGE. -/
theorem test_finalize_too_large :
    after (small .active .none 1 0 true) 0x300 (fun t => (t.status, t.totalBits)) = some (0x011a, 8) := by decide +kernel

/-- R150: reset wins over the command offered with it. -/
theorem test_reset_wins :
    ∃ t, step { filled .active 5 with inputs := [⟨true, true, 0x100#10⟩] } = .next t ∧ t.status = 0x0000 :=
  ⟨_, rfl, rfl⟩

/-! Witnesses: for each statement with hypotheses, values that meet them together. -/

theorem witness_EveryWordSelectsExactlyOneRow :
    (OpcodeRow.mk "FINALIZE" 0x300#10 0x300#10).selectedBy 0x3aa#10 = true ∧
    (OpcodeRow.mk "ABSORB" 0x200#10 0x300#10).selectedBy 0x3aa#10 = false := by decide

theorem witness_DecodeAndEncodeAgree : (Instr.absorb 0xff#8).wellFormed = true ∧ wordFits 1023 = true := by decide

theorem witness_DataBitsMatterToAbsorbOnly :
    (opField 0x100#10 = opField 0x1ff#10 ∧ opField 0x100#10 ≠ 0b10#2) ∧ opField 0x2ff#10 = 0b10#2 := by decide

/-- The three texts of a byte, at the ends of their ranges. -/
theorem witness_AssemblerReadsCommandText :
    "0xff".toList ∈ byteTexts 0xff ∧ "255".toList ∈ byteTexts 0xff ∧ "0".toList ∈ byteTexts 0x00 ∧
    "' '".toList ∈ byteTexts 0x20 ∧ "';'".toList ∈ byteTexts 0x3b ∧ "'~'".toList ∈ byteTexts 0x7e := by decide +kernel

theorem witness_AssemblerReadsPseudoCommandText :
    (∀ p ∈ [((0x61 : Byte), "'a'".toList), (0xff, "255".toList)], p.2 ∈ byteTexts p.1) ∧
    ['a', ' ', ';'].all charFits = true ∧ '"' ∉ ['a', ' ', ';'] := by decide +kernel

/-- Each code of `err` on STATUS (S1 row 1 and S2 row 3), and none. -/
theorem witness_StatusWordLayout :
    (small .idle .seqError 0 0 false).status = 0x0004 ∧ (small .done .inputTooLarge 1 8 true).status = 0x011a ∧
    (small .done .none 0 0 false).status = 0x0022 := by decide

theorem witness_PseudoCommandExpansions : (ScriptLine.absorbN [0, 255]).wellFormed = true := by decide

theorem witness_StepRunsTheIssuedCommand : ∃ (s : State) (p : PortSample) (rest : List PortSample),
    s.inputs = p :: rest ∧ p.rst = false ∧ p.cmdValid = true :=
  ⟨{ filled .active 5 with inputs := [⟨false, true, 0x2ff#10⟩] }, _, _, rfl, rfl, rfl⟩

theorem witness_StepWaitsWithoutACommand : State.reset.inputs = [] ∧
    ∃ (s : State) (p : PortSample) (rest : List PortSample), s.inputs = p :: rest ∧ p.rst = false ∧ p.cmdValid = false :=
  ⟨rfl, { filled .active 5 with inputs := [⟨false, false, 0x2ff#10⟩] }, _, _, rfl, rfl, rfl⟩

theorem witness_HardwareResetOverridesEverything : ∃ (s : State) (p : PortSample) (rest : List PortSample),
    s.inputs = p :: rest ∧ p.rst = true :=
  ⟨{ filled .done 5 with inputs := [⟨true, true, 0x300#10⟩] }, _, _, rfl, rfl⟩

theorem witness_PlacedWordRunsNext : decodeTableWord 16 0x261 = some (.absorb 0x61#8) := by decide

theorem witness_NopLeavesTheState : opField 0x0ff#10 = 0b00#2 := by decide

theorem witness_InitMakesAFreshState :
    opField 0x1ff#10 = 0b01#2 ∧ Memory.wf (filled .done 5).pending = true ∧ Memory.wf fixture.pending = true ∧
    (filled .done 5).w = fixture.w ∧ (filled .done 5).wp = fixture.wp ∧ (filled .done 5).work = fixture.work ∧
    (filled .done 5).t = fixture.t ∧ (filled .done 5).j = fixture.j ∧ (filled .done 5).inputs = fixture.inputs ∧
    (filled .done 5).draws = fixture.draws ∧ ∃ t, exec .init (filled .done 5) = .next t :=
  ⟨by decide, by decide, by decide, rfl, rfl, rfl, rfl, rfl, rfl, rfl, _, rfl⟩

theorem witness_AbsorbStoresAByte : (filled .active 62).phase = .active ∧
    (filled .active 62).pendingLen.toNat ≤ 62 ∧ Memory.wf (filled .active 62).pending = true := by decide

theorem witness_AbsorbCompressesAFullBlock :
    fixture.phase = .active ∧ fixture.pendingLen.toNat = 63 ∧ Memory.wf fixture.pending = true := by decide

/-- Both sides of the clauses: a byte stored in phase ACTIVE, and a byte dropped in phase DONE. -/
theorem witness_AbsorbFrame :
    (∃ t, exec (.absorb 1) (filled .active 62) = .next t ∧ (filled .active 62).phase = .active ∧
      (filled .active 62).pendingLen.toNat ≠ 63) ∧
    ∃ t, exec (.absorb 1) (filled .done 5) = .next t ∧ (filled .done 5).phase ≠ .active :=
  ⟨⟨_, rfl, rfl, by decide⟩, _, rfl, by decide⟩

theorem witness_FinalizeWithOneBlock : ∃ s : State, s.phase = .active ∧ s.pendingLen.toNat ≤ 55 ∧
    Memory.wf s.pending = true ∧ s.ovf = false ∧ s.totalBits.toNat + 8 * s.pendingLen.toNat < 2 ^ 32 :=
  ⟨filled .active 55, by decide⟩

/-- At the lower end, and at the largest message that succeeds (S3). -/
theorem witness_FinalizeWithTwoBlocks :
    (∃ s : State, s.phase = .active ∧ 56 ≤ s.pendingLen.toNat ∧ s.pendingLen.toNat ≤ 63 ∧
      Memory.wf s.pending = true ∧ s.ovf = false ∧ s.totalBits.toNat + 8 * s.pendingLen.toNat < 2 ^ 32) ∧
    (fixture.phase = .active ∧ 56 ≤ fixture.pendingLen.toNat ∧ fixture.pendingLen.toNat ≤ 63 ∧
      Memory.wf fixture.pending = true ∧ fixture.ovf = false ∧
      fixture.totalBits.toNat + 8 * fixture.pendingLen.toNat < 2 ^ 32) :=
  ⟨⟨filled .active 56, by decide⟩, by decide⟩

/-- Each of the two grounds. -/
theorem witness_FinalizeOfTooLongInputFaults :
    (∃ s : State, s.phase = .active ∧ s.ovf = true) ∧
    ∃ s : State, s.phase = .active ∧ 2 ^ 32 ≤ s.totalBits.toNat + 8 * s.pendingLen.toNat :=
  ⟨⟨small .active .none 0 0 true, by decide⟩, small .active .none 63 0xffffff00 false, by decide⟩

/-- Each clause: a success, the fault INPUT_TOO_LARGE, and the fault SEQ_ERROR. -/
theorem witness_FinalizeFrame :
    (∃ t, exec .finalize (filled .active 55) = .next t ∧ (filled .active 55).pendingLen.toNat ≤ 55 ∧ t.ovf = false) ∧
    (∃ t, exec .finalize (small .active .none 1 0 true) = .next t ∧ t.ovf = true) ∧
    ∃ t, exec .finalize (filled .idle 5) = .next t ∧ (filled .idle 5).phase ≠ .active :=
  ⟨⟨_, rfl, by decide, by decide +kernel⟩, ⟨_, rfl, rfl⟩, _, rfl, by decide⟩

theorem witness_LifecycleViolationIsRecordedOnly :
    (filled .idle 5).phase ≠ .active ∧ (filled .done 5).phase ≠ .active ∧ (small .done .inputTooLarge 1 8 true).err ≠ .none := by
  decide

/-- INIT offered to a faulted engine: the one kind of step, beside reset, that clears `err`. -/
theorem witness_FirstFaultIsKept : ∃ t,
    step ((small .done .inputTooLarge 1 8 true).withFetchWord 16 0x100) = .next t ∧
    ((small .done .inputTooLarge 1 8 true).withFetchWord 16 0x100).err ≠ .none ∧
    t.err ≠ ((small .done .inputTooLarge 1 8 true).withFetchWord 16 0x100).err :=
  ⟨_, rfl, by decide, by decide⟩

/-- Each of the three ways `err` changes. -/
theorem witness_OnlyTheListedFaultsAreRecorded :
    (∃ t, exec .init (small .idle .seqError 0 0 false) = .next t ∧ t.err ≠ .seqError) ∧
    (∃ t, exec (.absorb 1) State.reset = .next t ∧ t.err ≠ State.reset.err) ∧
    ∃ t, exec .finalize (small .active .none 1 0 true) = .next t ∧ t.err ≠ .none :=
  ⟨⟨_, rfl, by decide⟩, ⟨_, rfl, by decide⟩, _, rfl, by decide⟩

/-- A faulted state that meets the invariant, one for each code. -/
theorem witness_FaultedStateIsFrozen :
    ((small .idle .seqError 0 0 false).Inv ∧ (small .idle .seqError 0 0 false).err ≠ .none) ∧
    (small .done .inputTooLarge 1 8 true).Inv ∧ (small .done .inputTooLarge 1 8 true).err ≠ .none := by
  refine ⟨⟨?_, by decide⟩, ?_, by decide⟩ <;> constructor <;> decide

theorem witness_PhaseTransitions :
    (∃ t, exec .finalize (filled .active 5) = .next t) ∧
    (∃ t, exec .finalize (filled .idle 5) = .next t ∧ (filled .idle 5).phase ≠ .active ∧ (filled .idle 5).err = .none) ∧
    ∃ (s : State) (p : PortSample) (rest : List PortSample), s.inputs = p :: rest ∧ p.rst = true :=
  ⟨⟨_, rfl⟩, ⟨_, rfl, by decide, rfl⟩, { filled .done 5 with inputs := [⟨true, false, 0⟩] }, _, _, rfl, rfl⟩

theorem witness_FinalizeIsOneShot :
    (∃ t, exec .finalize (filled .active 5) = .next t ∧ (filled .active 5).phase = .active) ∧
    ∃ t, exec .finalize (small .active .none 1 0 true) = .next t :=
  ⟨⟨_, rfl, rfl⟩, _, rfl⟩

/-- The largest message that succeeds, and one byte more. -/
theorem witness_FinalizeEndsTheRun :
    (fixture.Inv ∧ fixture.phase = .active) ∧ (small .active .none 0 0 true).Inv := by
  refine ⟨⟨?_, rfl⟩, ?_⟩ <;> constructor <;> decide

theorem witness_EveryCommandCompletes : (filled .active 63).Inv ∧ (small .done .seqError 0 8 false).Inv := by
  constructor <;> constructor <;> decide

/-- The stop of an ABSORB, and that of a FINALIZE, in a state R26 excludes. -/
theorem witness_OnlyAnOverrunStops :
    exec (.absorb 1) (small .active .none 64 0 false) = .fault .pendingOutOfRange ∧
    exec .finalize (small .active .none 127 0 false) = .fault .pendingOutOfRange := ⟨rfl, rfl⟩

/-- `V` changes: by INIT, and by the ABSORB that fills the buffer. -/
theorem witness_OnlyTheseCommandsWriteV :
    (∃ t, exec .init State.reset = .next t ∧ t.v ≠ State.reset.v) ∧
    ∃ t, exec (.absorb 0x61) fixture = .next t ∧ t.v ≠ fixture.v :=
  ⟨⟨_, rfl, by decide⟩, _, rfl, by decide +kernel⟩

/-- For the statements over every command: a command that adds, with and without a carry. -/
theorem witness_BitCounterAndCarry :
    (∃ t, exec (.absorb 0x61) fixture = .next t) ∧ (∃ t, exec .finalize (filled .active 55) = .next t) ∧
    ∃ t, exec .nop fixture = .next t := ⟨⟨_, rfl⟩, ⟨_, rfl⟩, _, rfl⟩

/-- For the fill count: 63 bytes, 62 bytes, a success and a failure of FINALIZE. -/
theorem witness_FillCount :
    (∃ t, exec (.absorb 0x61) fixture = .next t) ∧ (∃ t, exec (.absorb 1) (filled .active 62) = .next t) ∧
    (∃ t, exec .finalize fixture = .next t) ∧ ∃ t, exec .finalize (small .active .none 1 0 true) = .next t :=
  ⟨⟨_, rfl⟩, ⟨_, rfl⟩, ⟨_, rfl⟩, _, rfl⟩

/-- The ends of the rotation amounts and of the bit numbers. -/
theorem witness_RotationMovesBits : (rotl 0x00000001 31).getLsbD 31 = true ∧ (rotl 0x80000000 1).getLsbD 0 = true := by
  decide

theorem witness_BooleanFunctionsBitwise :
    ff 15 0xff00ff00 0xf0f0f0f0 0 = 0x0ff00ff0 ∧ ff 16 0xff00ff00 0xf0f0f0f0 0 = 0xf000f000 ∧
    gg 15 0xff00ff00 0xf0f0f0f0 0 = 0x0ff00ff0 ∧ gg 16 0xff00ff00 0xf0f0f0f0 0x0f0f0f0f = 0xf00ff00f := by decide

/-- Both sides of the switch, and the last round. -/
theorem witness_RoundConstantSequence :
    roundConst 15 = 0x228cbce6 ∧ roundConst 16 = 0x9d8a7a87 ∧ roundConst 63 = 0x3d43cec5 ∧
    runningConst 16 = 0x9d8a7a87 := by decide

theorem witness_LoadWordIsBigEndian : (execMicro (.ldw ⟨63 / 4, by omega⟩) fixture).w[15] = 0x61616100 := by decide

/-- Where the positions of R125 meet. -/
theorem witness_CompressOrderAndFrame :
    compressOps[15]? = some (.ldw 15) ∧ compressOps[16]? = some (.xpw 0) ∧ compressOps[67]? = some (.xpw 51) ∧
    compressOps[68]? = some (.xpp 0) ∧ compressOps[131]? = some (.xpp 63) ∧ compressOps[132]? = some .ldv ∧
    compressOps[133]? = some (.rnd 0) ∧ compressOps[196]? = some (.rnd 63) ∧ compressOps[197]? = some .fbk := by
  decide +kernel

/-- Blocks whose XOR is a third, and the all-zero block. -/
theorem witness_ExpansionIsLinear :
    (∀ a : Fin 64, State.memRead1 { fixture with pending := [(0, 0x03#8), (9, 0xf0#8)] } a =
      State.memRead1 { fixture with pending := [(0, 0x01#8)] } a ^^^
        State.memRead1 { fixture with pending := [(0, 0x02#8), (9, 0xf0#8)] } a) ∧
    ∀ a : Fin 64, State.reset.memRead1 a = 0x00#8 := by decide

theorem witness_ExpansionRecurrences : 16 ≤ 67 ∧ 67 ≤ 67 ∧ (xpw ⟨67 - 16, by omega⟩ State.reset).w[67] = 0 := by decide

theorem witness_IndependentMicroOpsCommute :
    MicroOp.independent (.xpw 51) (.rnd 0) = true ∧ MicroOp.independent (.ldw 15) .ldv = true ∧
    MicroOp.independent (.rnd 0) (.rnd 1) = false := by decide

/-- A micro-operation that depends on none of those before it may be run first. -/
theorem respectsDependences_of_front (x : MicroOp) (p q : List MicroOp) (h : compressOps = p ++ x :: q)
    (hp : p.all (fun y => MicroOp.independent y x) = true) : RespectsDependences (x :: (p ++ q)) := by
  refine ⟨h ▸ List.perm_middle.symm, fun a b hab hs => ?_⟩
  rw [h, List.sublist_append_iff] at hs
  obtain ⟨l₁, l₂, he, h₁, h₂⟩ := hs
  have hq : (x :: q).Sublist (x :: (p ++ q)) := (List.sublist_append_right p q).cons_cons x
  match l₁, he with
  | [], he => subst he; exact h₂.trans hq
  | [c], he =>
    obtain ⟨rfl, rfl⟩ : a = c ∧ [b] = l₂ := by simpa using he
    rcases List.mem_cons.1 (List.singleton_sublist.1 h₂) with rfl | hb
    · rw [List.all_eq_true] at hp
      have := hp a (List.singleton_sublist.1 h₁)
      simp_all
    · exact (h₁.append (List.singleton_sublist.2 hb)).cons x
  | c :: d :: r, he =>
    obtain ⟨rfl, rfl, hn⟩ : a = c ∧ b = d ∧ [] = r ++ l₂ := by simpa using he
    obtain ⟨rfl, rfl⟩ := List.append_eq_nil_iff.1 hn.symm
    exact (h₁.trans (List.sublist_append_left p q)).cons x

/-- The reference order, and the schedule that loads the working registers before it expands the block. -/
theorem witness_EveryScheduleComputesTheSame :
    RespectsDependences compressOps ∧
    RespectsDependences (.ldv :: (expandOps ++ ((List.finRange 64).map .rnd ++ [.fbk]))) :=
  ⟨⟨List.Perm.refl _, fun _ _ _ h => h⟩,
    respectsDependences_of_front .ldv expandOps _ (by simp [compressOps]) (by decide +kernel)⟩

theorem witness_EveryStepKeepsTheInvariant : ∃ s t : State, s.Inv ∧ step s = .next t := by
  refine ⟨fixture.withFetchWord 16 0x261, _, ?_, rfl⟩
  constructor <;> decide

theorem witness_EveryStepKeepsTheMemoryForm :
    ∃ s t : State, Memory.wf s.pending = true ∧ step s = .next t :=
  ⟨fixture.withFetchWord 16 0x300, _, by decide, rfl⟩

theorem witness_ControlIgnoresMessageContent :
    (Instr.absorb 0x00).mnemonic = (Instr.absorb 0xff).mnemonic ∧
    SameControl (filled .active 63) { small .active .none 63 0x400 false with v := Config.iv } := by
  exact ⟨rfl, by simp [SameControl, filled, small]⟩

/-- Two states that differ in `V` and `pending` in phase IDLE, and two that differ beyond the valid tail and in the
transient state in phase ACTIVE. -/
theorem witness_UnspecifiedStateIsNeverObserved :
    SameSpecified State.reset { State.reset with v := Config.iv, pending := [(7, 0x55#8)] } ∧
    SameSpecified (filled .active 63)
      { filled .active 63 with pending := [(0, 0x01#8), (63, 0x02#8)], w := Vector.replicate 68 5, t := 9 } := by
  constructor <;> constructor <;> decide

theorem witness_ChunkingInvariance : ∃ t, runInstrs (absorbBytes [1, 2]) opened = .next t := ⟨_, rfl⟩

/-- A message below the ceiling, and the shortest one at it. -/
theorem witness_StateAfterAbsorbing : Memory.wf (filled .done 5).pending = true ∧
    ([1, 2, 3] : List Byte).length ≤ 2 ^ 29 - 1 ∧ 2 ^ 29 ≤ (List.replicate (2 ^ 29) (0x61 : Byte)).length :=
  ⟨by decide, by decide, by simp only [List.length_replicate, le_refl]⟩

theorem witness_HashIsTheChainOverThePaddedMessage : Memory.wf (filled .done 5).pending = true ∧
    ([] : List Byte).length ≤ 2 ^ 29 - 1 ∧ (List.replicate (2 ^ 29 - 1) (0x61 : Byte)).length ≤ 2 ^ 29 - 1 :=
  ⟨by decide, by decide, by simp only [List.length_replicate, le_refl]⟩

theorem witness_OversizeMessageGivesNoDigest : Memory.wf (filled .done 5).pending = true ∧
    2 ^ 29 ≤ (List.replicate (2 ^ 29) (0x61 : Byte)).length :=
  ⟨by decide, by simp only [List.length_replicate, le_refl]⟩

end Sys2Proof.Tests
end

section
/-! PROOFS. The word operations of 00_scope.md. Rotation, told by its bits and by the library's `BitVec.rotateLeft` (R9);
the permutation functions, linear because rotation is (R12); the byte-order helpers, told by the numbers they stand
for (R11). Then the three statements about them. -/

namespace Sys2Proof.Machine

/-! Rotation (R9). -/

/-- R9's rotation is the library's: at a shift of 0 both halves of the model's disjunction are `x` itself. -/
theorem rotl_eq_rotateLeft (x : Word) (k : Nat) : rotl x k = x.rotateLeft k := by
  rw [BitVec.rotateLeft_def, rotl]
  rcases Nat.eq_zero_or_pos (k % 32) with hk | hk
  · simp [hk, BitVec.ushiftRight_eq_zero]
  · rw [Nat.mod_eq_of_lt (a := 32 - k % 32) (by omega)]

/-- Bit `i` of a rotated word is the bit `k` places lower, cyclically. -/
theorem getLsbD_rotl (x : Word) (k : Nat) {i : Nat} (hi : i < 32) :
    (rotl x k).getLsbD i = x.getLsbD ((i + (32 - k % 32)) % 32) := by
  rw [rotl_eq_rotateLeft, BitVec.getLsbD_rotateLeft]
  by_cases hlow : i < k % 32
  · rw [Nat.mod_eq_of_lt (by omega : i + (32 - k % 32) < 32)]
    simp [hlow, Nat.add_comm]
  · rw [show (i + (32 - k % 32)) % 32 = i - k % 32 by omega]
    simp [hlow, hi]

/-- R9's reading of a rotation, for every amount: bit `i` goes to bit `(i + k) mod 32`. -/
theorem getLsbD_rotl_add_mod (x : Word) (k : Nat) {i : Nat} (hi : i < 32) :
    (rotl x k).getLsbD ((i + k) % 32) = x.getLsbD i := by
  rw [getLsbD_rotl x k (Nat.mod_lt _ (by decide))]
  congr 1
  omega

@[simp] theorem rotl_zero_right (x : Word) : rotl x 0 = x := by
  simp [rotl]

theorem rotl_eq_shiftLeft_or_shiftRight (x : Word) {k : Nat} (hpos : 1 ≤ k) (hk : k ≤ 31) :
    rotl x k = (x <<< k) ||| (x >>> (32 - k)) := by
  rw [rotl, Nat.mod_eq_of_lt (by omega : k < 32), Nat.mod_eq_of_lt (by omega : 32 - k < 32)]

theorem rotl_rotl (x : Word) (a b : Nat) : rotl (rotl x a) b = rotl x ((a + b) % 32) := by
  refine BitVec.eq_of_getLsbD_eq fun i hi => ?_
  rw [getLsbD_rotl _ b hi, getLsbD_rotl x a (Nat.mod_lt _ (by decide)), getLsbD_rotl x _ hi]
  congr 1
  omega

theorem rotl_xor (x y : Word) (k : Nat) : rotl (x ^^^ y) k = rotl x k ^^^ rotl y k := by
  refine BitVec.eq_of_getLsbD_eq fun i hi => ?_
  simp only [BitVec.getLsbD_xor, getLsbD_rotl _ k hi]

@[simp] theorem rotl_zero_left (k : Nat) : rotl 0#32 k = 0#32 := by
  refine BitVec.eq_of_getLsbD_eq fun i hi => ?_
  rw [getLsbD_rotl _ k hi, BitVec.getLsbD_zero, BitVec.getLsbD_zero]

theorem rotl_allOnes (k : Nat) : rotl (BitVec.allOnes 32) k = BitVec.allOnes 32 := by
  refine BitVec.eq_of_getLsbD_eq fun i hi => ?_
  rw [getLsbD_rotl _ k hi, BitVec.getLsbD_allOnes, BitVec.getLsbD_allOnes]
  simp [hi, Nat.mod_lt]

/-! The permutation functions (R12): linear, being XORs of rotations. -/

theorem p0_xor (x y : Word) : p0 (x ^^^ y) = p0 x ^^^ p0 y := by
  simp only [p0, rotl_xor]
  ac_rfl

theorem p1_xor (x y : Word) : p1 (x ^^^ y) = p1 x ^^^ p1 y := by
  simp only [p1, rotl_xor]
  ac_rfl

@[simp] theorem p0_zero : p0 0#32 = 0#32 := by
  simp [p0]

@[simp] theorem p1_zero : p1 0#32 = 0#32 := by
  simp [p1]

/-! The byte-order helpers (R11), each by the number it stands for. -/

/-- Concatenation as arithmetic: the left part is the more significant. -/
theorem toNat_append_eq_mul_add {m n : Nat} (x : BitVec m) (y : BitVec n) :
    (x ++ y).toNat = x.toNat * 2 ^ n + y.toNat := by
  rw [BitVec.toNat_append, ← Nat.shiftLeft_add_eq_or_of_lt y.isLt, Nat.shiftLeft_eq]

theorem be32_toNat (b0 b1 b2 b3 : Byte) :
    (be32 b0 b1 b2 b3).toNat = b0.toNat * 2 ^ 24 + b1.toNat * 2 ^ 16 + b2.toNat * 2 ^ 8 + b3.toNat := by
  simp only [be32, toNat_append_eq_mul_add]
  omega

theorem bytes32_toNat (w : Word) (k : Fin 4) : (bytes32 w k).toNat = w.toNat / 2 ^ (24 - 8 * k.val) % 256 := by
  rw [bytes32, BitVec.extractLsb'_toNat, Nat.shiftRight_eq_div_pow]

theorem bytes64_toNat (x : BitVec 64) (k : Fin 8) : (bytes64 x k).toNat = x.toNat / 2 ^ (56 - 8 * k.val) % 256 := by
  rw [bytes64, BitVec.extractLsb'_toNat, Nat.shiftRight_eq_div_pow]

/-- `BYTES32` undoes `BE32`: byte `k` of the assembled word is the `k`-th of the four. -/
theorem bytes32_be32 (b0 b1 b2 b3 : Byte) (k : Fin 4) : bytes32 (be32 b0 b1 b2 b3) k = #v[b0, b1, b2, b3][k] := by
  apply BitVec.eq_of_toNat_eq
  rw [bytes32_toNat, be32_toNat]
  fin_cases k <;> simp <;> omega

/-- `BE32` undoes `BYTES32`: the four bytes are adjacent slices of the word. -/
theorem be32_bytes32 (w : Word) : be32 (bytes32 w 0) (bytes32 w 1) (bytes32 w 2) (bytes32 w 3) = w := by
  change w.extractLsb' 24 8 ++ w.extractLsb' 16 8 ++ w.extractLsb' 8 8 ++ w.extractLsb' 0 8 = w
  rw [BitVec.extractLsb'_append_extractLsb'_eq_extractLsb' (rfl : 24 = 16 + 8),
    BitVec.extractLsb'_append_extractLsb'_eq_extractLsb' (rfl : 16 = 8 + 8),
    BitVec.extractLsb'_append_extractLsb'_eq_extractLsb' (rfl : 8 = 0 + 8)]
  exact BitVec.extractLsb'_eq_self

/-- Settles O36: every law follows from where each bit of a rotated word comes from. -/
theorem rotationMovesBits : Obligations.RotationMovesBits :=
  ⟨fun x k _ _ hi => getLsbD_rotl_add_mod x k hi, rotl_zero_right,
    fun x _ hpos hk => rotl_eq_shiftLeft_or_shiftRight x hpos hk, fun x a b _ _ => rotl_rotl x a b,
    fun x y k _ => rotl_xor x y k, fun k _ => ⟨rotl_zero_left k, rotl_allOnes k⟩⟩

/-- Settles O37: `P0` and `P1` are written as R12 writes them, and inherit linearity from rotation. -/
theorem permutationsAreLinear : Obligations.PermutationsAreLinear :=
  ⟨fun _ => ⟨rfl, rfl⟩, fun x y => ⟨p0_xor x y, p1_xor x y⟩, p0_zero, p1_zero⟩

/-- Settles O38: the weights of `BE32`, the two inverse laws, and the digits `BYTES64` takes. -/
theorem bigEndianBytes : Obligations.BigEndianBytes :=
  ⟨fun b0 b1 b2 b3 => ⟨be32_toNat b0 b1 b2 b3, bytes32_be32 b0 b1 b2 b3 0, bytes32_be32 b0 b1 b2 b3 1,
      bytes32_be32 b0 b1 b2 b3 2, bytes32_be32 b0 b1 b2 b3 3⟩,
    be32_bytes32, bytes64_toNat⟩

end Sys2Proof.Machine
end

section
/-! PROOFS. COMPRESS computes `CF` (43_compression_rounds.md R125, R127): the fields each micro-operation writes, then the
stages of a compression one after the other, each with what its operations so far have put into the transient state. -/

namespace Sys2Proof.Machine

/-! What each micro-operation writes. -/

@[simp] theorem execMicro_ldw_w (j : Fin 16) (s : State) :
    (execMicro (.ldw j) s).w = s.w.set j.val (s.memRead4 j) := (rfl)
@[simp] theorem execMicro_xpw_w (k : Fin 52) (s : State) :
    (execMicro (.xpw k) s).w = s.w.set (k.val + 16)
      (extendWord s.w[k.val] s.w[k.val + 3] s.w[k.val + 7] s.w[k.val + 10] s.w[k.val + 13]) := (rfl)
@[simp] theorem execMicro_xpp_w (j : Fin 64) (s : State) : (execMicro (.xpp j) s).w = s.w := (rfl)
@[simp] theorem execMicro_xpp_wp (j : Fin 64) (s : State) :
    (execMicro (.xpp j) s).wp = s.wp.set j.val (s.w[j.val] ^^^ s.w[j.val + 4]) := (rfl)
@[simp] theorem execMicro_ldv_w (s : State) : (execMicro .ldv s).w = s.w := (rfl)
@[simp] theorem execMicro_ldv_wp (s : State) : (execMicro .ldv s).wp = s.wp := (rfl)
@[simp] theorem execMicro_ldv_work (s : State) : (execMicro .ldv s).work = loadWorking s.v := (rfl)
@[simp] theorem execMicro_rnd_w (j : Fin 64) (s : State) : (execMicro (.rnd j) s).w = s.w := (rfl)
@[simp] theorem execMicro_rnd_wp (j : Fin 64) (s : State) : (execMicro (.rnd j) s).wp = s.wp := (rfl)
@[simp] theorem execMicro_rnd_work (j : Fin 64) (s : State) :
    (execMicro (.rnd j) s).work = round j.val s.w[j.val] s.wp[j.val] s.work := (rfl)
@[simp] theorem execMicro_fbk_v (s : State) : (execMicro .fbk s).v = feedback s.v s.work := (rfl)

/-- A sequence without FBK leaves `V` alone (R23). -/
theorem runMicro_v (ops : List MicroOp) (s : State) (h : .fbk ∉ ops) : (runMicro ops s).v = s.v := by
  induction ops generalizing s with
  | nil => rfl
  | cons op ops ih =>
    rw [List.mem_cons, not_or] at h
    rw [runMicro_cons, ih _ h.2, execMicro_v op s (Ne.symm h.1)]

/-! The schedule `W` on the state and as the list of `CF`. -/

/-- The first `n` words of `W` are those of the list. -/
def SchedulePrefix (l : List Word) (n : Nat) (w : Vector Word 68) : Prop :=
  ∀ (i : Nat) (h : i < 68), i < n → w[i] = l.getD i 0

theorem SchedulePrefix.set_next {l : List Word} {n : Nat} {w : Vector Word 68} (h : SchedulePrefix l n w) (hn : n < 68)
    {x : Word} (hx : x = l.getD n 0) : SchedulePrefix l (n + 1) (w.set n x) := by
  intro i hi hin
  rw [Vector.getElem_set]
  split
  · subst i; exact hx
  · exact h i hi (by omega)

/-- Words 0 to 15 of the schedule are those LDW reads from the buffer (R101). -/
theorem scheduleW_getD_lt_16 (s : State) (n : Nat) (j : Fin 16) :
    (scheduleW s.block n).getD j.val 0 = s.memRead4 j := by
  rw [scheduleW_prefix s.block 0 n j.val (Nat.zero_le n) (by omega)]
  simp [scheduleW, loadedWords, State.memRead4]

/-- The later words of the schedule follow the recurrence of XPW (R102). -/
theorem scheduleW_getD_add_16 (block : Vector Byte 64) {n k : Nat} (h : k < n) :
    (scheduleW block n).getD (k + 16) 0 =
      extendWord ((scheduleW block n).getD k 0) ((scheduleW block n).getD (k + 3) 0) ((scheduleW block n).getD (k + 7) 0)
        ((scheduleW block n).getD (k + 10) 0) ((scheduleW block n).getD (k + 13) 0) := by
  have hlow : ∀ i, i < 16 + k → (scheduleW block n).getD i 0 = (scheduleW block k).getD i 0 := fun i hi =>
    scheduleW_prefix block k n i (by omega) hi
  rw [hlow k (by omega), hlow (k + 3) (by omega), hlow (k + 7) (by omega), hlow (k + 10) (by omega),
    hlow (k + 13) (by omega), scheduleW_prefix block (k + 1) n (k + 16) h (by omega), scheduleW,
    List.getD_append_right _ _ _ _ (by rw [scheduleW_length]; omega), scheduleW_length,
    show k + 16 - (16 + k) = 0 by omega]
  rfl

/-! The stages (R125). -/

theorem runMicro_ldw_schedulePrefix (s : State) :
    SchedulePrefix (scheduleW s.block 52) 16 (runMicro ((List.finRange 16).map .ldw) s).w := by
  refine (runMicro_finRange 16 .ldw
    (fun k t => t.pending = s.pending ∧ SchedulePrefix (scheduleW s.block 52) k t.w) s
    ⟨rfl, fun i _ hi => absurd hi (by omega)⟩ fun j t ⟨hp, hw⟩ => ⟨by simp [hp], ?_⟩).2
  have hread : t.memRead4 j = s.memRead4 j := by simp only [State.memRead4, hp]
  exact execMicro_ldw_w j t ▸ hw.set_next (by omega) (by rw [hread, scheduleW_getD_lt_16])

theorem runMicro_xpw_schedulePrefix (block : Vector Byte 64) (s : State)
    (h : SchedulePrefix (scheduleW block 52) 16 s.w) :
    SchedulePrefix (scheduleW block 52) 68 (runMicro ((List.finRange 52).map .xpw) s).w := by
  refine runMicro_finRange 52 .xpw (fun k t => SchedulePrefix (scheduleW block 52) (k + 16) t.w) s h fun k t hw => ?_
  have hread : ∀ i (hi : i < 68), i < k.val + 16 → t.w[i] = (scheduleW block 52).getD i 0 := hw
  rw [execMicro_xpw_w, Nat.add_right_comm]
  refine hw.set_next (by omega) ?_
  rw [scheduleW_getD_add_16 block k.isLt, hread _ _ (by omega), hread _ _ (by omega), hread _ _ (by omega),
    hread _ _ (by omega), hread _ _ (by omega)]

theorem runMicro_xpp (s : State) :
    (runMicro ((List.finRange 64).map .xpp) s).w = s.w ∧
      ∀ (i : Nat) (h : i < 64), (runMicro ((List.finRange 64).map .xpp) s).wp[i] = s.w[i] ^^^ s.w[i + 4] := by
  have key := runMicro_finRange 64 .xpp
    (fun k t => t.w = s.w ∧ ∀ (i : Nat) (h : i < 64), i < k → t.wp[i] = s.w[i] ^^^ s.w[i + 4]) s
    ⟨rfl, fun i _ hi => absurd hi (by omega)⟩ (by
      rintro j t ⟨hw, hwp⟩
      refine ⟨hw, fun i hi hij => ?_⟩
      simp only [execMicro_xpp_wp, Vector.getElem_set, hw]
      split
      · subst i; rfl
      · exact hwp i hi (by omega))
  exact ⟨key.1, fun i hi => key.2 i hi hi⟩

theorem runMicro_rnd_work (l : List Word) (s : State) (hw : SchedulePrefix l 68 s.w)
    (hwp : ∀ (i : Nat) (h : i < 64), s.wp[i] = s.w[i] ^^^ s.w[i + 4]) :
    (runMicro ((List.finRange 64).map .rnd) s).work = roundsUpTo l s.work 64 := by
  refine (runMicro_finRange 64 .rnd
    (fun k t => t.w = s.w ∧ t.wp = s.wp ∧ t.work = roundsUpTo l s.work k) s ⟨rfl, rfl, rfl⟩
    fun j t ⟨h1, h2, h3⟩ => ⟨h1, h2, ?_⟩).2.2
  rw [execMicro_rnd_work, roundsUpTo, ← hw j.val (by omega) (by omega), ← hw (j.val + 4) (by omega) (by omega), ← h3]
  simp only [h1, h2, hwp j.val j.isLt]

/-- R127: whatever the transient state held, COMPRESS leaves `CF` of the register bank and the block in `V`. -/
theorem State.compress_v_eq_cf (s : State) : s.compress.v = cf s.v s.block := by
  rw [State.compress_v, runMicro_compressOps]
  have hw := runMicro_xpw_schedulePrefix s.block _ (runMicro_ldw_schedulePrefix s)
  have hv := runMicro_v ((List.finRange 16).map .ldw ++ (List.finRange 52).map .xpw ++ (List.finRange 64).map .xpp) s
    (by simp)
  rw [runMicro_append, runMicro_append] at hv
  generalize runMicro ((List.finRange 52).map .xpw) _ = t at hw hv ⊢
  obtain ⟨hw', hwp⟩ := runMicro_xpp t
  generalize runMicro ((List.finRange 64).map .xpp) t = u at hw' hwp hv ⊢
  rw [← hw'] at hw
  simp only [← hw'] at hwp
  simp only [runMicro_cons, runMicro_nil, execMicro_fbk_v]
  rw [runMicro_rnd_work _ _ (by simpa using hw) (by simpa using hwp), runMicro_v _ _ (by simp),
    execMicro_v .ldv u (by decide), execMicro_ldv_work, hv, cf]

end Sys2Proof.Machine
end

section
/-! PROOFS. The step (00_scope.md R6, R60, R150) and the outputs (10_state.md R24, R32, R33): what one moment at the ports
amounts to, the STATUS word as a number, and the words of the digest port. Then the statements about them. -/

namespace Sys2Proof.Machine

/-! What one step does, by the moment at the head of the queue. -/

theorem step_of_inputs_nil {s : State} (h : s.inputs = []) : step s = .next s := by
  simp only [step, State.takeEvent, h]

section
variable {s : State} {p : PortSample} {rest : List PortSample}

theorem step_of_rst (h : s.inputs = p :: rest) (hr : p.rst = true) :
    step s = .next (s.setInputs rest).hardwareReset := by
  simp only [step, State.takeEvent, h, portEvent, hr, if_true]

theorem step_of_cmdValid (h : s.inputs = p :: rest) (hr : p.rst = false) (hv : p.cmdValid = true) :
    step s = exec (decode p.cmd) (s.setInputs rest) := by
  simp [step, State.takeEvent, h, portEvent, hr, hv, State.cmdReady]

theorem step_of_quiet (h : s.inputs = p :: rest) (hr : p.rst = false) (hv : p.cmdValid = false) :
    step s = .next (s.setInputs rest) := by
  simp [step, State.takeEvent, h, portEvent, hr, hv]

end

/-- Everything a step can do. -/
theorem step_cases (s : State) :
    (s.inputs = [] ∧ step s = .next s) ∨ ∃ p rest, s.inputs = p :: rest ∧
      ((p.rst = true ∧ step s = .next (s.setInputs rest).hardwareReset) ∨
       (p.rst = false ∧ p.cmdValid = true ∧ step s = exec (decode p.cmd) (s.setInputs rest)) ∨
       (p.rst = false ∧ p.cmdValid = false ∧ step s = .next (s.setInputs rest))) := by
  rcases h : s.inputs with _ | ⟨p, rest⟩
  · exact .inl ⟨rfl, step_of_inputs_nil h⟩
  · refine .inr ⟨p, rest, rfl, ?_⟩
    cases hr : p.rst
    · cases hv : p.cmdValid
      · exact .inr (.inr ⟨rfl, rfl, step_of_quiet h hr hv⟩)
      · exact .inr (.inl ⟨rfl, rfl, step_of_cmdValid h hr hv⟩)
    · exact .inl ⟨rfl, step_of_rst h hr⟩

/-! The STATUS word (R32, R33). -/

theorem State.digestValid_iff (s : State) : s.digestValid = true ↔ s.phase = .done ∧ s.err = .none := by
  simp [State.digestValid]

theorem State.digestValid_of_phase_ne {s : State} (h : s.phase ≠ .done) : s.digestValid = false := by
  simp [State.digestValid, h]

/-- The STATUS word as a number: each field weighed by its lowest bit. -/
theorem State.status_toNat (s : State) :
    s.status.toNat = s.pendingLen.toNat * 256 + s.digestValid.toNat * 32 + s.ovf.toNat * 16 +
      (errCodeBits s.err).toNat * 4 + (phaseCode s.phase).toNat := by
  simp only [State.status, toNat_append_eq_mul_add, BitVec.toNat_ofBool, BitVec.toNat_ofNat]
  omega

theorem State.status_phase (s : State) : s.status.extractLsb' 0 2 = phaseCode s.phase := by
  apply BitVec.eq_of_toNat_eq
  rw [BitVec.extractLsb'_toNat, Nat.shiftRight_eq_div_pow, s.status_toNat]
  omega

theorem State.status_err (s : State) : s.status.extractLsb' 2 2 = errCodeBits s.err := by
  apply BitVec.eq_of_toNat_eq
  rw [BitVec.extractLsb'_toNat, Nat.shiftRight_eq_div_pow, s.status_toNat]
  omega

/-- STATUS from bit 4 up: the two codes lie below. -/
theorem State.status_toNat_div_16 (s : State) :
    s.status.toNat / 16 = s.pendingLen.toNat * 16 + s.digestValid.toNat * 2 + s.ovf.toNat := by
  rw [s.status_toNat]
  omega

theorem State.status_ovf (s : State) : s.status.getLsbD 4 = s.ovf := by
  rw [BitVec.getLsbD, Nat.testBit_eq_decide_div_mod_eq, show 2 ^ 4 = 16 by rfl, s.status_toNat_div_16]
  cases s.ovf <;> simp <;> omega

theorem State.status_digestValid (s : State) : s.status.getLsbD 5 = s.digestValid := by
  rw [BitVec.getLsbD, Nat.testBit_eq_decide_div_mod_eq, show 2 ^ 5 = 16 * 2 by rfl, ← Nat.div_div_eq_div_mul,
    s.status_toNat_div_16]
  have hovf := s.ovf.toNat_lt
  cases s.digestValid <;> simp <;> omega

/-- STATUS from bit 8 up: `pending_len` alone. -/
theorem State.status_toNat_div_256 (s : State) : s.status.toNat / 256 = s.pendingLen.toNat := by
  have hdv := s.digestValid.toNat_lt
  have hovf := s.ovf.toNat_lt
  rw [s.status_toNat]
  omega

theorem State.status_pendingLen (s : State) : s.status.extractLsb' 8 7 = s.pendingLen := by
  apply BitVec.eq_of_toNat_eq
  rw [BitVec.extractLsb'_toNat, Nat.shiftRight_eq_div_pow, show 2 ^ 8 = 256 by rfl, s.status_toNat_div_256]
  exact Nat.mod_eq_of_lt s.pendingLen.isLt

/-- The two reserved bits between `digest_valid` and `pending_len`. -/
theorem State.status_reserved (s : State) : s.status.extractLsb' 6 2 = 0#2 := by
  apply BitVec.eq_of_toNat_eq
  have hdv := s.digestValid.toNat_lt
  have hovf := s.ovf.toNat_lt
  rw [BitVec.extractLsb'_toNat, Nat.shiftRight_eq_div_pow, show 2 ^ 6 = 16 * 4 by rfl, ← Nat.div_div_eq_div_mul,
    s.status_toNat_div_16, BitVec.toNat_zero]
  omega

/-- The reserved top bit. -/
theorem State.status_top (s : State) : s.status.getLsbD 15 = false := by
  have hlen := s.pendingLen.isLt
  rw [BitVec.getLsbD, Nat.testBit_eq_decide_div_mod_eq, show 2 ^ 15 = 256 * 128 by rfl, ← Nat.div_div_eq_div_mul,
    s.status_toNat_div_256, Nat.div_eq_of_lt (by omega)]
  rfl

/-! The digest port (R24). -/

/-- Any byte of word `i` of the register bank, found on the port. -/
theorem State.digest_extractLsb' (s : State) (i : Fin 8) {m : Nat} (hm : m ≤ 24) :
    s.digest.extractLsb' (m + (224 - 32 * i.val)) 8 = s.v[i].extractLsb' m 8 := by
  fin_cases i <;>
    simp (disch := omega) only [State.digest, BitVec.extractLsb'_append_eq_of_le,
      BitVec.extractLsb'_append_eq_of_add_le, Nat.sub_sub] <;>
    simp

theorem State.digestByte_eq (s : State) (k : Fin 32) :
    s.digestByte k = s.v[k.val / 4].extractLsb' (24 - 8 * (k.val % 4)) 8 := by
  rw [State.digestByte, show 248 - 8 * k.val = 24 - 8 * (k.val % 4) + (224 - 32 * (k.val / 4)) by omega]
  exact s.digest_extractLsb' ⟨k.val / 4, by omega⟩ (by omega)

/-! The statements. -/

/-- Settles O9: the step is the hardware reset of the state with the moment taken, and its buffer of free bytes is canonical
whatever they are. -/
theorem hardwareResetOverridesEverything : Obligations.HardwareResetOverridesEverything := by
  intro s p rest h hr
  have hdv : (s.setInputs rest).hardwareReset.digestValid = false := State.digestValid_of_phase_ne (by simp)
  have hstatus : (s.setInputs rest).hardwareReset.status = 0x0000#16 :=
    BitVec.eq_of_toNat_eq (by simp [State.status_toNat, hdv, errCodeBits, phaseCode])
  exact ⟨_, step_of_rst h hr, rfl, rfl, rfl, rfl, rfl, hstatus, hdv, freePending_wf s.draws, rfl⟩

/-- Settles O10: the fields of the state written down, and STATUS computed from them. -/
theorem powerOnResetState : Obligations.PowerOnResetState :=
  ⟨rfl, rfl, rfl, rfl, rfl, by decide, State.digestValid_of_phase_ne (by decide)⟩

/-- Settles O11: a number that the decoder reads fits the port, so it is offered, and the step decodes the same word. -/
theorem placedWordRunsNext : Obligations.PlacedWordRunsNext := by
  intro s nbits w i h
  simp only [decodeTableWord, decodeNat] at h
  by_cases hfit : wordFits (w % 2 ^ nbits) = true
  · simp only [hfit, if_true, Option.some.injEq] at h
    rw [State.withFetchWord, State.offerNext, if_pos hfit, step_of_cmdValid (State.setInputs_inputs _ _) rfl rfl]
    exact congrArg (exec · s) h
  · simp [hfit] at h

/-- Settles O33: each field read off the number that STATUS stands for. -/
theorem statusWordLayout : Obligations.StatusWordLayout := by
  intro s
  refine ⟨?_, ?_, s.status_ovf, s.status_digestValid, s.status_reserved, s.status_pendingLen, s.status_top⟩
  · rw [s.status_phase]
    cases s.phase <;> rfl
  · rw [s.status_err]
    cases s.err <;> rfl

/-- Settles O34: the conjunction `digestValid` computes. -/
theorem digestValidExactlyWhenDone : Obligations.DigestValidExactlyWhenDone :=
  State.digestValid_iff

/-- Settles O35: the port is defined by its slices, and each lies within one word of the register bank. -/
theorem digestPortLayout : Obligations.DigestPortLayout :=
  fun s k => ⟨rfl, s.digestByte_eq k, s.digestByte_eq k⟩

end Sys2Proof.Machine
end

section
/-! PROOFS. The paths of a command that goes on, told once as an inductive relation (40_commands_init_absorb.md R80 to R83,
41_finalize_padding.md R90). Then the statements that look at every command, or at every path of one: each is a short case
analysis of the path taken. -/

namespace Sys2Proof.Machine

/-! What the operations on a path do to the fields, where the model's own laws do not say it. -/

theorem State.countBits_totalBits_toNat (s : State) (n : Nat) :
    (s.countBits n).totalBits.toNat = (s.totalBits.toNat + n) % 2 ^ 32 := by
  rw [State.countBits_totalBits, BitVec.toNat_add, BitVec.toNat_ofNat, Nat.add_mod_mod]

theorem State.countBits_ovf_iff (s : State) (n : Nat) :
    (s.countBits n).ovf = true ↔ s.ovf = true ∨ 2 ^ 32 ≤ s.totalBits.toNat + n := by
  rw [State.countBits_ovf, Bool.or_eq_true, decide_eq_true_eq]

@[simp] theorem State.countTail_totalBits (s : State) :
    s.countTail.totalBits = (s.countBits (8 * s.pendingLen.toNat)).totalBits := (rfl)

/-- Once a fault is recorded, raising another changes nothing (R133). -/
theorem State.raiseFault_of_err {s : State} (h : s.err ≠ .none) (c : ErrCode) : s.raiseFault c = s := if_neg h

/-- A fault writes `err` and nothing else. -/
theorem State.raiseFault_eq (s : State) (c : ErrCode) : s.raiseFault c = { s with err := (s.raiseFault c).err } := by
  unfold State.raiseFault
  split <;> rfl

theorem State.stored_wf {s : State} (b : Byte) (hm : Memory.wf s.pending = true) (hlen : s.pendingLen.toNat < 64) :
    Memory.wf (s.stored b).pending = true := Memory.wf_write hm hlen

theorem State.stored_read {s : State} (b : Byte) (hm : Memory.wf s.pending = true) (a : Nat) :
    (s.stored b).pending.read a = if a = s.pendingLen.toNat then b else s.pending.read a := Memory.read_write hm

theorem State.stored_block {s : State} (b : Byte) (hm : Memory.wf s.pending = true) (hlen : s.pendingLen.toNat < 64) :
    (s.stored b).block = s.block.set s.pendingLen.toNat b := by
  refine Vector.ext fun a ha => ?_
  rw [State.block_getElem, State.stored_read b hm, Vector.getElem_set, State.block_getElem]
  exact if_congr eq_comm rfl rfl

theorem State.padFirstBlock_wf {s : State} (hm : Memory.wf s.pending = true) :
    Memory.wf s.padFirstBlock.pending = true := by
  unfold State.padFirstBlock
  split
  · simpa using s.fill_wf _ _ hm
  · exact hm

theorem State.padLastBlock_wf {s : State} (hm : Memory.wf s.pending = true) :
    Memory.wf s.padLastBlock.pending = true := by
  simpa [State.padLastBlock] using State.memWrite8_wf _ (lengthField s.totalBits) (s.fill_wf s.pendingLen.toNat 56 hm)

/-! The paths. -/

/-- The state after the ABSORB that fills the buffer (R83). -/
def State.absorbedBlock (s : State) (b : Byte) : State :=
  ((s.stored b).compress.countBits 512).setPendingLen 0

/-- The state after a FINALIZE that its overflow test turns away (R132, R136). -/
def State.tooLong (s : State) : State := (s.countTail.setPhase .done).raiseFault .inputTooLarge

/-- The state after a FINALIZE that succeeds (R90). -/
def State.finished (s : State) : State := (s.countTail.stored Config.marker).padFirstBlock.padLastBlock

/-- `ExecPath i s t`: command `i` goes on from `s` to `t`, with one constructor for each path. -/
inductive ExecPath : Instr → State → State → Prop
  /-- NOP (R81). -/
  | nop (s : State) : ExecPath .nop s s
  /-- INIT (R82). -/
  | init (s : State) : ExecPath .init s s.initialise
  /-- ABSORB or FINALIZE outside phase ACTIVE (R131). -/
  | outside (i : Instr) (s : State) (hi : i = .finalize ∨ ∃ b, i = .absorb b) (hp : s.phase ≠ .active) :
      ExecPath i s (s.raiseFault .seqError)
  /-- ABSORB with room left (R83). -/
  | store (b : Byte) (s : State) (hp : s.phase = .active) (hlen : s.pendingLen.toNat < 63) :
      ExecPath (.absorb b) s (s.stored b)
  /-- ABSORB of the 64th byte (R83). -/
  | block (b : Byte) (s : State) (hp : s.phase = .active) (hlen : s.pendingLen.toNat = 63) :
      ExecPath (.absorb b) s (s.absorbedBlock b)
  /-- FINALIZE of a message that is too long (R90, R132). -/
  | tooLong (s : State) (hp : s.phase = .active) (hovf : s.countTail.ovf = true) : ExecPath .finalize s s.tooLong
  /-- FINALIZE that succeeds (R90). -/
  | finished (s : State) (hp : s.phase = .active) (hovf : s.countTail.ovf = false) (hlen : s.pendingLen.toNat < 64) :
      ExecPath .finalize s s.finished

/-- Every command that goes on takes one of the paths. -/
theorem execPath_of_exec {i : Instr} {s t : State} (h : exec i s = .next t) : ExecPath i s t := by
  cases i with
  | nop =>
    cases h
    exact .nop s
  | init =>
    cases h
    exact .init s
  | absorb b =>
    rcases execAbsorb_cases b s with ⟨hp, he⟩ | ⟨hp, hlen, he⟩ | ⟨hp, hlen, he⟩ | ⟨_, _, he⟩ <;> cases he.symm.trans h
    · exact .outside _ s (.inr ⟨b, rfl⟩) hp
    · exact .store b s hp hlen
    · exact .block b s hp hlen
  | finalize =>
    rcases execFinalize_cases s with ⟨hp, he⟩ | ⟨hp, hovf, he⟩ | ⟨hp, hovf, hlen, he⟩ | ⟨_, _, _, he⟩ <;>
      cases he.symm.trans h
    · exact .outside _ s (.inl rfl) hp
    · exact .tooLong s hp hovf
    · exact .finished s hp hovf hlen

theorem exec_outside {i : Instr} {s : State} (hi : i = .finalize ∨ ∃ b, i = .absorb b) (hp : s.phase ≠ .active) :
    exec i s = .next (s.raiseFault .seqError) := by
  obtain rfl | ⟨b, rfl⟩ := hi
  · rw [exec, execFinalize, State.whenActive_not _ _ hp]
  · rw [exec, execAbsorb, State.whenActive_not _ _ hp]

theorem exec_absorb_store (b : Byte) {s : State} (hp : s.phase = .active) (hlen : s.pendingLen.toNat < 63) :
    exec (.absorb b) s = .next (s.stored b) := by
  rcases execAbsorb_cases b s with ⟨hn, _⟩ | ⟨_, _, he⟩ | ⟨_, _, _⟩ | ⟨_, _, _⟩
  · exact absurd hp hn
  · exact he
  · omega
  · omega

theorem exec_absorb_block (b : Byte) {s : State} (hp : s.phase = .active) (hlen : s.pendingLen.toNat = 63) :
    exec (.absorb b) s = .next (s.absorbedBlock b) := by
  rcases execAbsorb_cases b s with ⟨hn, _⟩ | ⟨_, _, _⟩ | ⟨_, _, he⟩ | ⟨_, _, _⟩
  · exact absurd hp hn
  · omega
  · exact he
  · omega

/-! The fields at the end of each path. -/

section
variable (s : State) (b : Byte)

@[simp] theorem State.absorbedBlock_v : (s.absorbedBlock b).v = (s.stored b).compress.v := by
  simp [State.absorbedBlock]
@[simp] theorem State.absorbedBlock_pending : (s.absorbedBlock b).pending = (s.stored b).pending := by
  simp [State.absorbedBlock]
@[simp] theorem State.absorbedBlock_pendingLen : (s.absorbedBlock b).pendingLen = 0 := by
  simp [State.absorbedBlock]
@[simp] theorem State.absorbedBlock_totalBits : (s.absorbedBlock b).totalBits = (s.countBits 512).totalBits := by
  simp [State.absorbedBlock]
@[simp] theorem State.absorbedBlock_ovf : (s.absorbedBlock b).ovf = (s.countBits 512).ovf := by
  simp [State.absorbedBlock]
@[simp] theorem State.absorbedBlock_err : (s.absorbedBlock b).err = s.err := by
  simp [State.absorbedBlock]
@[simp] theorem State.absorbedBlock_phase : (s.absorbedBlock b).phase = s.phase := by
  simp [State.absorbedBlock]
@[simp] theorem State.absorbedBlock_inputs : (s.absorbedBlock b).inputs = s.inputs := by
  simp [State.absorbedBlock]

@[simp] theorem State.tooLong_v : s.tooLong.v = s.v := by
  simp [State.tooLong]
@[simp] theorem State.tooLong_pending : s.tooLong.pending = s.pending := by
  simp [State.tooLong]
@[simp] theorem State.tooLong_pendingLen : s.tooLong.pendingLen = s.pendingLen := by
  simp [State.tooLong]
@[simp] theorem State.tooLong_totalBits : s.tooLong.totalBits = s.countTail.totalBits := by
  simp [State.tooLong]
@[simp] theorem State.tooLong_ovf : s.tooLong.ovf = s.countTail.ovf := by
  simp [State.tooLong]
@[simp] theorem State.tooLong_err : s.tooLong.err = if s.err = .none then .inputTooLarge else s.err := by
  simp [State.tooLong]
@[simp] theorem State.tooLong_phase : s.tooLong.phase = .done := by
  simp [State.tooLong]

@[simp] theorem State.finished_pendingLen : s.finished.pendingLen = 0 := by
  simp [State.finished]
@[simp] theorem State.finished_totalBits : s.finished.totalBits = s.countTail.totalBits := by
  simp [State.finished]
@[simp] theorem State.finished_ovf : s.finished.ovf = s.countTail.ovf := by
  simp [State.finished]
@[simp] theorem State.finished_err : s.finished.err = s.err := by
  simp [State.finished]
@[simp] theorem State.finished_phase : s.finished.phase = .done := by
  simp [State.finished]

end

/-- Every path keeps the canonical form of the buffer. -/
theorem ExecPath.wf_pending {i : Instr} {s t : State} (h : ExecPath i s t) (hm : Memory.wf s.pending = true) :
    Memory.wf t.pending = true := by
  cases h with
  | nop => exact hm
  | init => exact State.initialise_pending_nil s hm ▸ Memory.wf_nil
  | outside => simpa using hm
  | store b _ _ hlen => exact State.stored_wf b hm (by omega)
  | block b _ _ hlen => simpa using State.stored_wf b hm (by omega)
  | tooLong => simpa using hm
  | finished _ _ _ hlen => exact State.padLastBlock_wf (State.padFirstBlock_wf (State.stored_wf _ hm hlen))

/-! The statements about ABSORB. -/

/-- Settles O15: the path that fills the buffer, with the byte at its last place. -/
theorem absorbCompressesAFullBlock : Obligations.AbsorbCompressesAFullBlock := by
  intro b s hp hlen hm
  refine ⟨_, exec_absorb_block b hp hlen, ?_, ?_, ?_, by simp, by simp [hp], by simp, by simp, fun a => ?_⟩
  · rw [State.absorbedBlock_v, State.compress_v_eq_cf, State.stored_block b hm (by omega), State.stored_v]
    simp only [hlen]
  · rw [State.absorbedBlock_totalBits, State.countBits_totalBits_toNat]
  · rw [State.absorbedBlock_ovf, State.countBits_ovf_iff]
  · rw [State.absorbedBlock_pending, State.stored_read b hm, hlen]

/-- Settles O16: outside ACTIVE only `err` is written; the one store is at `pending_len`; a compression comes with a
63-byte buffer only. -/
theorem absorbFrame : Obligations.AbsorbFrame := by
  intro b s t h
  have hread : ∀ a, a ≠ s.pendingLen.toNat → (s.stored b).pending.read a = s.pending.read a := fun _ ha =>
    Memory.read_write_ne ha
  cases execPath_of_exec h with
  | outside _ _ _ hp =>
    refine ⟨by simp, by simp, fun _ _ => by simp, fun ha => absurd ha hp, fun _ => s.raiseFault_eq _, fun _ => by simp⟩
  | store _ _ hp _ =>
    exact ⟨rfl, rfl, hread, fun _ => rfl, fun hn => absurd hp hn, fun _ => by simp⟩
  | block _ _ hp hlen =>
    exact ⟨by simp, by simp, by simpa using hread, fun _ => by simp, fun hn => absurd hp hn, fun hn => absurd hlen hn⟩

/-! The statements about every command. -/

/-- Settles O30: the other paths leave the register bank alone. -/
theorem onlyTheseCommandsWriteV : Obligations.OnlyTheseCommandsWriteV := by
  intro i s t h hv
  cases execPath_of_exec h with
  | nop => exact absurd rfl hv
  | init => exact .inl ⟨rfl, by simp⟩
  | outside => exact absurd (by simp) hv
  | store => exact absurd rfl hv
  | block b _ hp hlen => exact .inr (.inl ⟨⟨b, rfl⟩, hp, hlen⟩)
  | tooLong => exact absurd (by simp) hv
  | finished _ hp hovf _ => exact .inr (.inr ⟨rfl, hp, by simp, by simpa using hovf⟩)

/-- Settles O31: the counting paths count with `countBits`, whose laws say what it adds, and the others keep a counter that is
below `2^32`, so that adding 0 to it neither wraps nor carries. -/
theorem bitCounterAndCarry : Obligations.BitCounterAndCarry := by
  intro i s t h
  have hlt : s.totalBits.toNat < 2 ^ 32 := s.totalBits.isLt
  have hkeep : s.totalBits.toNat = (s.totalBits.toNat + 0) % 2 ^ 32 ∧
      (s.ovf = true ↔ s.ovf = true ∨ 2 ^ 32 ≤ s.totalBits.toNat + 0) :=
    ⟨by omega, ⟨.inl, fun h => h.resolve_right (by omega)⟩⟩
  cases execPath_of_exec h with
  | nop => exact hkeep
  | init => exact ⟨by simp, by simp⟩
  | outside _ _ hi hp =>
    obtain rfl | ⟨b, rfl⟩ := hi <;> simpa [hp] using hkeep
  | store b _ hp hlen => simpa [hlen.ne] using hkeep
  | block b _ hp hlen => simp [hp, hlen]
  | tooLong _ hp => simp [hp, State.countTail]
  | finished _ hp => simp [hp, State.countTail]

/-- Settles O32: the store adds one below 63, a compression starts an empty buffer, and the other paths keep the count. -/
theorem fillCount : Obligations.FillCount := by
  intro i s t h
  cases execPath_of_exec h with
  | nop => rfl
  | init => simp
  | outside _ _ hi hp =>
    obtain rfl | ⟨b, rfl⟩ := hi <;> simp [hp]
  | store b _ hp hlen =>
    rw [s.stored_pendingLen_toNat b (by omega)]
    simp only [hp, if_true]
    omega
  | block b _ hp hlen => simp [hp, hlen]
  | tooLong _ hp hovf => simp [hovf]
  | finished _ hp hovf => simp [hp, hovf]

/-- Settles O25: the paths for the commands, the hardware reset, and the two low bits of STATUS. -/
theorem phaseTransitions : Obligations.PhaseTransitions := by
  refine ⟨fun i s t h => ?_, fun i s t h hi hp he => ?_, fun s p rest h hr => ⟨_, step_of_rst h hr, rfl⟩, fun s => ?_⟩
  · cases execPath_of_exec h with
    | nop => rfl
    | init => simp
    | outside _ _ hi hp =>
      obtain rfl | ⟨b, rfl⟩ := hi <;> simp [hp]
    | store => rfl
    | block => simp
    | tooLong _ hp => simp [hp]
    | finished _ hp => simp [hp]
  · cases (exec_outside hi hp).symm.trans h
    simp [he]
  · rw [s.status_phase]
    cases s.phase <;> rfl

/-- Settles O29: of the four cases of ABSORB, and of FINALIZE, one stops, and the conditions of the others exclude its own. -/
theorem onlyAnOverrunStops : Obligations.OnlyAnOverrunStops := by
  refine ⟨fun b s => ?_, fun s => ?_, fun i s r h => ?_, fun i s r h => ?_⟩
  · rcases execAbsorb_cases b s with ⟨hp, he⟩ | ⟨hp, hlen, he⟩ | ⟨hp, hlen, he⟩ | ⟨hp, hlen, he⟩
    · simp [he, hp]
    · simp [he, show ¬ 64 ≤ s.pendingLen.toNat by omega]
    · simp [he, hlen]
    · simp [he, hp, hlen]
  · have hcarry : s.countTail.ovf = true ↔ s.ovf = true ∨ 2 ^ 32 ≤ s.totalBits.toNat + 8 * s.pendingLen.toNat :=
      s.countBits_ovf_iff _
    rcases execFinalize_cases s with ⟨hp, he⟩ | ⟨hp, ho, he⟩ | ⟨hp, ho, hlen, he⟩ | ⟨hp, ho, hlen, he⟩
    · simp [he, hp]
    · refine iff_of_false (by simp [he]) fun ⟨_, _, hovf, hlt⟩ => ?_
      rcases hcarry.mp ho with h | h
      · simp [hovf] at h
      · omega
    · simp [he, hlen]
    · obtain ⟨hovf, hlt⟩ := not_or.mp fun h => absurd (hcarry.mpr h) (by simp [ho])
      exact iff_of_true he ⟨hp, hlen, Bool.eq_false_of_not_eq_true hovf, Nat.not_le.mp hlt⟩
  · cases i with
    | nop => cases h
    | init => cases h
    | absorb b => exact .inr ⟨b, rfl⟩
    | finalize => exact .inl rfl
  · cases i with
    | nop => cases h
    | init => cases h
    | absorb b =>
      rcases execAbsorb_cases b s with ⟨_, he⟩ | ⟨_, _, he⟩ | ⟨_, _, he⟩ | ⟨_, _, he⟩ <;> simp [he] at h
    | finalize =>
      rcases execFinalize_cases s with ⟨_, he⟩ | ⟨_, _, he⟩ | ⟨_, _, _, he⟩ | ⟨_, _, _, he⟩ <;> simp [he] at h

end Sys2Proof.Machine
end

section
/-! PROOFS. The invariant (10_state.md R26, R36): what it asks of a state in each phase, that every path of a command and
the hardware reset keep it, and what follows from it. -/

namespace Sys2Proof.Machine

/-! The invariant by phase: the clauses about the other phases hold of themselves. -/

section
variable {s : State} (hm : Memory.wf s.pending = true)
include hm

theorem State.Inv.of_idle (hp : s.phase = .idle) (herr : s.err ≠ .inputTooLarge) (hlen : s.pendingLen = 0)
    (hbits : s.totalBits = 0) (hovf : s.ovf = false) : s.Inv where
  memory := hm
  fillCount := by simp [hlen]
  activeNoErr := by simp [hp]
  tooLargeDone h := absurd h herr
  activeWholeBlocks := by simp [hp]
  idleClean _ := ⟨hlen, hbits, hovf⟩
  doneOvf := by simp [hp]
  doneEmpty := by simp [hp]

theorem State.Inv.of_active (hp : s.phase = .active) (hlen : s.pendingLen.toNat ≤ 63) (herr : s.err = .none)
    (hbits : s.totalBits.toNat % 512 = 0) : s.Inv where
  memory := hm
  fillCount := hlen
  activeNoErr _ := herr
  tooLargeDone := by simp [herr]
  activeWholeBlocks _ := hbits
  idleClean := by simp [hp]
  doneOvf := by simp [hp]
  doneEmpty := by simp [hp]

theorem State.Inv.of_done (hp : s.phase = .done) (hlen : s.pendingLen.toNat ≤ 63)
    (hovf : s.ovf = true ↔ s.err = .inputTooLarge) (hempty : s.ovf = false → s.pendingLen = 0) : s.Inv where
  memory := hm
  fillCount := hlen
  activeNoErr := by simp [hp]
  tooLargeDone h := ⟨hp, hovf.mpr h⟩
  activeWholeBlocks := by simp [hp]
  idleClean := by simp [hp]
  doneOvf _ := hovf.mp
  doneEmpty _ := hempty

end

/-! What keeps it. -/

theorem State.Inv.setInputs {s : State} (h : s.Inv) (l : List PortSample) : (s.setInputs l).Inv :=
  ⟨h.memory, h.fillCount, h.activeNoErr, h.tooLargeDone, h.activeWholeBlocks, h.idleClean, h.doneOvf, h.doneEmpty⟩

theorem State.hardwareReset_inv (s : State) : s.hardwareReset.Inv :=
  .of_idle (freePending_wf s.draws) rfl (by simp) rfl rfl rfl

/-- A SEQ_ERROR never hides or invents an INPUT_TOO_LARGE. -/
theorem State.raiseFault_seqError_eq_inputTooLarge (s : State) :
    (s.raiseFault .seqError).err = .inputTooLarge ↔ s.err = .inputTooLarge := by
  rw [State.raiseFault_err]
  split <;> simp [*]

theorem State.Inv.raiseFault {s : State} (h : s.Inv) (hp : s.phase ≠ .active) : (s.raiseFault .seqError).Inv := by
  have hm : Memory.wf (s.raiseFault .seqError).pending = true := by simpa using h.memory
  have herr := s.raiseFault_seqError_eq_inputTooLarge
  cases hphase : s.phase with
  | idle =>
    obtain ⟨hlen, hbits, hovf⟩ := h.idleClean hphase
    exact .of_idle hm (by simpa) (fun he => by simpa [hphase] using (h.tooLargeDone (herr.mp he)).1) (by simpa)
      (by simpa) (by simpa)
  | active => exact absurd hphase hp
  | done =>
    refine .of_done hm (by simpa) (by simpa using h.fillCount) ?_ (by simpa using h.doneEmpty hphase)
    rw [herr, State.raiseFault_ovf]
    exact ⟨h.doneOvf hphase, fun he => (h.tooLargeDone he).2⟩

/-- Every path of a command keeps the invariant. -/
theorem ExecPath.inv {i : Instr} {s t : State} (h : ExecPath i s t) (hs : s.Inv) : t.Inv := by
  have hm := h.wf_pending hs.memory
  cases h with
  | nop => exact hs
  | init => exact .of_active hm (by simp) (by simp) (by simp) (by simp)
  | outside _ _ _ hp => exact hs.raiseFault hp
  | store b _ hp hlen =>
    exact .of_active hm hp (by rw [s.stored_pendingLen_toNat b (by omega)]; omega) (hs.activeNoErr hp)
      (hs.activeWholeBlocks hp)
  | block b _ hp hlen =>
    have hblocks := hs.activeWholeBlocks hp
    refine .of_active hm (by simpa) (by simp) (by simpa using hs.activeNoErr hp) ?_
    rw [State.absorbedBlock_totalBits, State.countBits_totalBits_toNat]
    omega
  | tooLong _ hp hovf =>
    exact .of_done hm (by simp) (by simpa using hs.fillCount) (by simp [hovf, hs.activeNoErr hp]) (by simp [hovf])
  | finished _ hp hovf _ =>
    exact .of_done hm (by simp) (by simp) (by simp [hovf, hs.activeNoErr hp]) (by simp)

/-! The statements. -/

/-- Settles O50: the fields of the state, written down. -/
theorem invariantAtReset : Obligations.InvariantAtReset :=
  State.Inv.of_idle Memory.wf_nil rfl (by decide) rfl rfl rfl

/-- Settles O51: by what the moment asks for: nothing, a hardware reset, a command on one of its paths, or waiting. -/
theorem everyStepKeepsTheInvariant : Obligations.EveryStepKeepsTheInvariant := by
  intro s t hs h
  rcases step_cases s with ⟨_, he⟩ | ⟨p, rest, _, ⟨_, he⟩ | ⟨_, _, he⟩ | ⟨_, _, he⟩⟩
  · cases he.symm.trans h
    exact hs
  · cases he.symm.trans h
    exact State.hardwareReset_inv _
  · exact (execPath_of_exec (he.symm.trans h)).inv (hs.setInputs rest)
  · cases he.symm.trans h
    exact hs.setInputs rest

/-- Settles O24: a recorded fault excludes phase ACTIVE, and outside ACTIVE a command only records a fault, if none is. -/
theorem faultedStateIsFrozen : Obligations.FaultedStateIsFrozen := by
  intro i s hs herr hi
  have houtside : (i = .finalize ∨ ∃ b, i = .absorb b) → exec i s = .next s := fun hi => by
    rw [exec_outside hi fun hp => herr (hs.activeNoErr hp), State.raiseFault_of_err herr]
  cases i with
  | nop => exact exec_nop s
  | init => exact absurd rfl hi
  | absorb b => exact houtside (.inr ⟨b, rfl⟩)
  | finalize => exact houtside (.inl rfl)

/-- Settles O28: the stopping case of ABSORB and of FINALIZE needs a fill count that the invariant excludes. -/
theorem everyCommandCompletes : Obligations.EveryCommandCompletes := by
  intro i s hs
  have hlen := hs.fillCount
  cases i with
  | nop => exact ⟨_, exec_nop s⟩
  | init => exact ⟨_, exec_init s⟩
  | absorb b =>
    rcases execAbsorb_cases b s with ⟨_, he⟩ | ⟨_, _, he⟩ | ⟨_, _, he⟩ | ⟨_, hge, _⟩
    · exact ⟨_, he⟩
    · exact ⟨_, he⟩
    · exact ⟨_, he⟩
    · omega
  | finalize =>
    rcases execFinalize_cases s with ⟨_, he⟩ | ⟨_, _, he⟩ | ⟨_, _, _, he⟩ | ⟨_, _, hge, _⟩
    · exact ⟨_, he⟩
    · exact ⟨_, he⟩
    · exact ⟨_, he⟩
    · omega

/-- STATUS of a good end whose buffer is empty and whose counter did not overflow (R159). -/
theorem State.status_of_goodEnd {s : State} (hp : s.phase = .done) (herr : s.err = .none) (hlen : s.pendingLen = 0)
    (hovf : s.ovf = false) : s.status = 0x0022#16 :=
  BitVec.eq_of_toNat_eq (by
    simp [State.status_toNat, s.digestValid_iff.mpr ⟨hp, herr⟩, hp, herr, hlen, hovf, errCodeBits, phaseCode])

/-- Settles O27: in ACTIVE no fault is recorded, so the path that succeeds ends well and the other records its own. -/
theorem finalizeEndsTheRun : Obligations.FinalizeEndsTheRun := by
  intro s hs hp
  have herr := hs.activeNoErr hp
  obtain ⟨t, h⟩ := everyCommandCompletes .finalize s hs
  refine ⟨t, h, ?_⟩
  cases execPath_of_exec h with
  | outside _ _ _ hn => exact absurd hp hn
  | tooLong =>
    exact ⟨by simp, .inr ⟨by simp [State.faultedEnd, herr], by simp [herr], by simp [State.digestValid, herr]⟩⟩
  | finished _ _ hovf _ =>
    exact ⟨by simp, .inl ⟨by simp [State.goodEnd, herr], State.status_of_goodEnd (by simp) (by simpa) (by simp) (by simpa),
      by simp [State.digestValid, herr]⟩⟩

end Sys2Proof.Machine
end

section
/-! PROOFS. Unspecified, transient and stale state is never observed (20_memory.md R48, R151; 43_compression_rounds.md R127):
every operation takes two states that differ in such elements alone to two such states, so every path of a command does,
so a step does, so any number of steps does. -/

namespace Sys2Proof.Machine

variable {s s' : State}

/-! Outcomes of the two shared operations with a continuation (R80, R55(a)), for any relation of states. -/

section
variable {R : State → State → Prop} {body body' : State → Host.Outcome State Fault Refusal}

theorem OutcomeRel.whenActive (hphase : s.phase = s'.phase)
    (hout : s.phase ≠ .active → R (s.raiseFault .seqError) (s'.raiseFault .seqError))
    (hbody : s.phase = .active → OutcomeRel R (body s) (body' s')) :
    OutcomeRel R (s.whenActive body) (s'.whenActive body') := by
  by_cases hp : s.phase = .active
  · rw [s.whenActive_active _ hp, s'.whenActive_active _ (hphase ▸ hp)]
    exact hbody hp
  · rw [s.whenActive_not _ hp, s'.whenActive_not _ (hphase ▸ hp)]
    exact hout hp

theorem OutcomeRel.storeThen {b b' : Byte} (hlen : s.pendingLen = s'.pendingLen)
    (hbody : s.pendingLen.toNat < 64 → OutcomeRel R (body (s.stored b)) (body' (s'.stored b'))) :
    OutcomeRel R (s.storeThen b body) (s'.storeThen b' body') := by
  rcases s.storeThen_cases b body with ⟨hlt, he⟩ | ⟨hge, he⟩ <;>
    rcases s'.storeThen_cases b' body' with ⟨hlt', he'⟩ | ⟨hge', he'⟩ <;> rw [he, he']
  · exact hbody hlt
  · exact absurd (hlen ▸ hlt) (by omega)
  · exact absurd (hlen ▸ hlt') (by omega)
  · rfl

end

/-! The operations. -/

theorem State.block_eq_of_read (h : ∀ a, a < 64 → s.pending.read a = s'.pending.read a) : s.block = s'.block :=
  Vector.ext fun a ha => by rw [State.block_getElem, State.block_getElem, h a ha]

theorem State.setPendingLen_countBits (s : State) (n : Nat) (x : BitVec 7) :
    (s.countBits n).setPendingLen x = (s.setPendingLen x).countBits n := rfl

namespace SameSpecified

theorem setInputs (h : SameSpecified s s') (l : List PortSample) :
    SameSpecified (s.setInputs l) (s'.setInputs l) :=
  { h with inputs := rfl }

/-- The free values of the two resets are the same, since the two states have drawn as often; none of them matters. -/
theorem hardwareReset (h : SameSpecified s s') : SameSpecified s.hardwareReset s'.hardwareReset where
  v hp := absurd rfl hp
  pending hp := by simp at hp
  wf := freePending_wf _
  wf' := freePending_wf _
  pendingLen := rfl
  totalBits := rfl
  ovf := rfl
  err := rfl
  phase := rfl
  inputs := h.inputs
  draws := by simp [h.draws]

theorem initialise (h : SameSpecified s s') : SameSpecified s.initialise s'.initialise where
  v _ := by simp
  pending _ a ha := by simp at ha
  wf := s.initialise_pending_nil h.wf ▸ Memory.wf_nil
  wf' := s'.initialise_pending_nil h.wf' ▸ Memory.wf_nil
  pendingLen := by simp
  totalBits := by simp
  ovf := by simp
  err := by simp
  phase := by simp
  inputs := by simpa using h.inputs
  draws := by simpa using h.draws

theorem raiseFault (h : SameSpecified s s') (c : ErrCode) : SameSpecified (s.raiseFault c) (s'.raiseFault c) where
  v := by simpa using h.v
  pending := by simpa using h.pending
  wf := by simpa using h.wf
  wf' := by simpa using h.wf'
  pendingLen := by simpa using h.pendingLen
  totalBits := by simpa using h.totalBits
  ovf := by simpa using h.ovf
  err := by simp [h.err]
  phase := by simpa using h.phase
  inputs := by simpa using h.inputs
  draws := by simpa using h.draws

theorem countBits (h : SameSpecified s s') (n : Nat) : SameSpecified (s.countBits n) (s'.countBits n) :=
  { h with
    totalBits := by simp [h.totalBits]
    ovf := by simp [h.ovf, h.totalBits] }

theorem countTail (h : SameSpecified s s') : SameSpecified s.countTail s'.countTail := by
  unfold State.countTail
  rw [← h.pendingLen]
  exact h.countBits _

/-- Both stores are at the one fill count, and count it up alike. -/
theorem stored (h : SameSpecified s s') (b : Byte) (hlen : s.pendingLen.toNat < 64) :
    SameSpecified (s.stored b) (s'.stored b) :=
  { h with
    pending := fun hp a ha => by
      rw [s.stored_pendingLen_toNat b hlen] at ha
      rw [State.stored_read b h.wf, State.stored_read b h.wf', ← h.pendingLen]
      split
      · rfl
      · exact h.pending hp a (by omega)
    wf := State.stored_wf b h.wf hlen
    wf' := State.stored_wf b h.wf' (h.pendingLen ▸ hlen)
    pendingLen := by simp [State.stored_pendingLen, h.pendingLen] }

/-- R127: of two such states with the same block, COMPRESS computes the same register bank. The buffer is empty after it. -/
theorem compress_setPendingLen (h : SameSpecified s s') (hp : s.phase ≠ .idle) (hblock : s.block = s'.block) :
    SameSpecified (s.compress.setPendingLen 0) (s'.compress.setPendingLen 0) where
  v _ := by simp [State.compress_v_eq_cf, h.v hp, hblock]
  pending _ a ha := by simp at ha
  wf := by simpa using h.wf
  wf' := by simpa using h.wf'
  pendingLen := by simp
  totalBits := by simpa using h.totalBits
  ovf := by simpa using h.ovf
  err := by simpa using h.err
  phase := by simpa using h.phase
  inputs := by simpa using h.inputs
  draws := by simp [h.draws]

theorem setPhase_done (h : SameSpecified s s') (hp : s.phase ≠ .idle) :
    SameSpecified (s.setPhase .done) (s'.setPhase .done) :=
  { h with
    v := fun _ => h.v hp
    pending := fun hd => by simp at hd
    phase := rfl }

/-! Padding. -/

/-- A fill from the fill count on leaves the same bytes below its end. -/
theorem fill_read (h : SameSpecified s s') (hp : s.phase = .active) (hi : Nat) {a : Nat} (ha : a < hi) (ha64 : a < 64) :
    (s.fill s.pendingLen.toNat hi).pending.read a = (s'.fill s'.pendingLen.toNat hi).pending.read a := by
  rw [s.fill_read _ _ h.wf, s'.fill_read _ _ h.wf', ← h.pendingLen]
  split
  · rfl
  · exact h.pending hp a (by omega)

theorem fill (h : SameSpecified s s') (hi : Nat) :
    SameSpecified (s.fill s.pendingLen.toNat hi) (s'.fill s'.pendingLen.toNat hi) :=
  { h with
    pending := fun hp a ha => by
      rw [State.fill_pendingLen] at ha
      rw [s.fill_read _ _ h.wf, s'.fill_read _ _ h.wf', if_neg (by omega), if_neg (by rw [← h.pendingLen]; omega)]
      exact h.pending hp a ha
    wf := s.fill_wf _ _ h.wf
    wf' := s'.fill_wf _ _ h.wf' }

theorem memWrite8 (h : SameSpecified s s') (x : BitVec 64) : SameSpecified (s.memWrite8 x) (s'.memWrite8 x) :=
  { h with
    pending := fun hp a ha => by
      rw [s.memWrite8_read x h.wf, s'.memWrite8_read x h.wf']
      split
      · rfl
      · exact h.pending hp a ha
    wf := s.memWrite8_wf x h.wf
    wf' := s'.memWrite8_wf x h.wf' }

/-- The first padding block: the tail with its marker, and zeros up to the end. -/
theorem padFirstBlock (h : SameSpecified s s') (hp : s.phase = .active) :
    SameSpecified s.padFirstBlock s'.padFirstBlock := by
  have hpad : SameSpecified ((s.fill s.pendingLen.toNat 64).compress.setPendingLen 0)
      ((s'.fill s'.pendingLen.toNat 64).compress.setPendingLen 0) :=
    (h.fill 64).compress_setPendingLen (by simp [hp]) (State.block_eq_of_read fun a ha => h.fill_read hp 64 ha ha)
  unfold State.padFirstBlock
  rw [← h.pendingLen] at hpad ⊢
  split
  · exact hpad
  · exact h

/-- The last padding block: what stands below the fill count, zeros up to 56, and the length. -/
theorem padLastBlock (h : SameSpecified s s') (hp : s.phase = .active) :
    SameSpecified s.padLastBlock s'.padLastBlock := by
  unfold State.padLastBlock
  rw [← h.totalBits]
  refine (((h.fill 56).memWrite8 _).compress_setPendingLen (by simp [hp])
    (State.block_eq_of_read fun a ha => ?_)).setPhase_done (by simp [hp])
  rw [State.memWrite8_read _ _ (s.fill_wf _ _ h.wf), State.memWrite8_read _ _ (s'.fill_wf _ _ h.wf')]
  split
  · rfl
  · exact h.fill_read hp 56 (by omega) ha

/-! The commands. -/

/-- What follows a stored byte: a full buffer lies below the fill count altogether. -/
theorem absorbBlockIfFull (h : SameSpecified s s') (hp : s.phase = .active) :
    SameSpecified s.absorbBlockIfFull s'.absorbBlockIfFull := by
  unfold State.absorbBlockIfFull
  rw [← h.pendingLen]
  split
  · rename_i hfull
    have hblock : s.block = s'.block :=
      State.block_eq_of_read fun a ha => h.pending hp a (by simpa [hfull] using ha)
    rw [State.setPendingLen_countBits, State.setPendingLen_countBits]
    exact (h.compress_setPendingLen (by simp [hp]) hblock).countBits _
  · exact h

theorem execAbsorb (h : SameSpecified s s') (b : Byte) :
    OutcomeRel SameSpecified (Machine.execAbsorb b s) (Machine.execAbsorb b s') := by
  refine .whenActive h.phase (fun _ => h.raiseFault _) fun hp => ?_
  exact .storeThen h.pendingLen fun hlen => (h.stored b hlen).absorbBlockIfFull hp

theorem execFinalize (h : SameSpecified s s') :
    OutcomeRel SameSpecified (Machine.execFinalize s) (Machine.execFinalize s') := by
  refine .whenActive h.phase (fun _ => h.raiseFault _) fun hp => ?_
  have hcount := h.countTail
  rw [← hcount.ovf]
  split
  · exact (hcount.setPhase_done (by simp [hp])).raiseFault _
  · exact .storeThen hcount.pendingLen fun hlen =>
      ((hcount.stored _ hlen).padFirstBlock (by simpa)).padLastBlock (by simpa)

theorem exec (h : SameSpecified s s') (i : Instr) : OutcomeRel SameSpecified (Machine.exec i s) (Machine.exec i s') := by
  cases i with
  | nop => exact h
  | init => exact h.initialise
  | absorb b => exact h.execAbsorb b
  | finalize => exact h.execFinalize

/-! Steps, and any number of them. -/

/-- The queue is the same, so the two states meet the same moment. -/
theorem step (h : SameSpecified s s') : OutcomeRel SameSpecified (Machine.step s) (Machine.step s') := by
  rcases step_cases s with ⟨hin, he⟩ | ⟨p, rest, hin, ⟨hr, he⟩ | ⟨hr, hv, he⟩ | ⟨hr, hv, he⟩⟩
  · rw [he, step_of_inputs_nil (h.inputs ▸ hin)]
    exact h
  · rw [he, step_of_rst (h.inputs ▸ hin) hr]
    exact (h.setInputs rest).hardwareReset
  · rw [he, step_of_cmdValid (h.inputs ▸ hin) hr hv]
    exact (h.setInputs rest).exec _
  · rw [he, step_of_quiet (h.inputs ▸ hin) hr hv]
    exact h.setInputs rest

theorem status (h : SameSpecified s s') : s.status = s'.status := by
  simp only [State.status, State.digestValid, h.phase, h.err, h.ovf, h.pendingLen]

theorem digest (h : SameSpecified s s') (hp : s.phase ≠ .idle) : s.digest = s'.digest := by
  simp only [State.digest, h.v hp]

end SameSpecified

/-- A relation that one step keeps, any number of steps keeps. -/
theorem OutcomeRel.run {R : State → State → Prop} (hstep : ∀ s s', R s s' → OutcomeRel R (step s) (step s')) (k : Nat)
    (hR : R s s') : OutcomeRel R (Host.Core.run core k s) (Host.Core.run core k s') := by
  induction k generalizing s s' with
  | zero => exact hR
  | succ k ih =>
    have h : OutcomeRel R (core.step s) (core.step s') := hstep s s' hR
    simp only [Host.Core.run]
    generalize core.step s = o, core.step s' = o' at h
    cases o with
    | next =>
      cases o' with
      | next => exact ih h
      | _ => exact False.elim h
    | fault =>
      cases o' with
      | fault => exact h
      | _ => exact False.elim h
    | refused =>
      cases o' with
      | refused => exact h
      | _ => exact False.elim h

/-- Settles O54: the relation is kept by a step, so by any number, and STATUS and the digest port read related fields only. -/
theorem unspecifiedStateIsNeverObserved : Obligations.UnspecifiedStateIsNeverObserved :=
  ⟨fun k _ _ h => OutcomeRel.run (fun _ _ => SameSpecified.step) k h, fun _ _ h => ⟨h.status, h.digest⟩⟩

end Sys2Proof.Machine
end

section
/-! PROOFS. Absorbing a message (41_finalize_padding.md R85, 10_state.md R36(d) and (f)): the state after the bytes so far, and
that one more ABSORB gives the state after one byte more. -/

namespace Sys2Proof.Machine

/-! Blocks and chains of a message that grows. -/

theorem blockAt_append {m l : List Byte} {i : Nat} (h : 64 * (i + 1) ≤ m.length) :
    blockAt (m ++ l) i = blockAt m i := by
  refine Vector.ext fun k hk => ?_
  simp only [blockAt, Vector.getElem_ofFn]
  exact List.getD_append _ _ _ _ (by omega)

theorem chain_append (v : Vector Word 8) {m l : List Byte} {q : Nat} (h : 64 * q ≤ m.length) :
    chain v (m ++ l) q = chain v m q := by
  induction q with
  | zero => rfl
  | succ q ih => rw [chain, chain, ih (by omega), blockAt_append h]

theorem getD_concat (m : List Byte) (b : Byte) (a : Nat) :
    (m ++ [b]).getD a 0 = if a = m.length then b else m.getD a 0 := by
  rcases Nat.lt_trichotomy a m.length with h | rfl | h
  · rw [List.getD_append _ _ _ _ h, if_neg (by omega)]
  · simp
  · rw [List.getD_eq_default _ _ (by simpa), if_neg (by omega), List.getD_eq_default _ _ (by omega)]

/-! The state after the bytes so far. -/

/-- `Absorbed m s`: `s` is as INIT and one ABSORB for each byte of `m` leave it. -/
structure Absorbed (m : List Byte) (s : State) : Prop where
  phase : s.phase = .active
  err : s.err = .none
  wf : Memory.wf s.pending = true
  pendingLen : s.pendingLen.toNat = m.length % 64
  totalBits : s.totalBits.toNat = 512 * (m.length / 64) % 2 ^ 32
  ovf : s.ovf = true ↔ 2 ^ 29 ≤ m.length
  tail : ∀ k, k < m.length % 64 → s.pending.read k = m.getD (64 * (m.length / 64) + k) 0
  v : s.v = chain Config.iv m (m.length / 64)

theorem absorbed_initialise {s : State} (hm : Memory.wf s.pending = true) : Absorbed [] s.initialise where
  phase := by simp
  err := by simp
  wf := s.initialise_pending_nil hm ▸ Memory.wf_nil
  pendingLen := by simp
  totalBits := by simp
  ovf := by simp
  tail k hk := by simp at hk
  v := by simp [chain]

section
variable {m : List Byte} {s : State} (h : Absorbed m s) (b : Byte)
include h

/-- The stored byte is the next of the tail. -/
theorem Absorbed.stored_read {k : Nat} (hk : k ≤ m.length % 64) :
    (s.stored b).pending.read k = (m ++ [b]).getD (64 * (m.length / 64) + k) 0 := by
  rw [State.stored_read b h.wf, h.pendingLen, getD_concat]
  split
  · rw [if_pos (by omega)]
  · rw [if_neg (by omega)]
    exact h.tail k (by omega)

theorem Absorbed.stored (hlen : m.length % 64 < 63) : Absorbed (m ++ [b]) (s.stored b) := by
  have hdiv : (m ++ [b]).length / 64 = m.length / 64 := by rw [List.length_append, List.length_singleton]; omega
  have hmod : (m ++ [b]).length % 64 = m.length % 64 + 1 := by rw [List.length_append, List.length_singleton]; omega
  have hlen64 : s.pendingLen.toNat < 64 := by rw [h.pendingLen]; omega
  refine ⟨h.phase, h.err, State.stored_wf b h.wf hlen64, ?_, ?_, ?_, fun k hk => ?_, ?_⟩
  · rw [s.stored_pendingLen_toNat b hlen64, h.pendingLen, hmod]
  · rw [hdiv]
    exact h.totalBits
  · rw [State.stored_ovf, h.ovf, List.length_append, List.length_singleton]
    omega
  · rw [hdiv]
    exact h.stored_read b (by omega)
  · rw [hdiv, chain_append _ (by omega)]
    exact h.v

theorem Absorbed.absorbedBlock (hlen : m.length % 64 = 63) : Absorbed (m ++ [b]) (s.absorbedBlock b) := by
  have hdiv : (m ++ [b]).length / 64 = m.length / 64 + 1 := by rw [List.length_append, List.length_singleton]; omega
  have hmod : (m ++ [b]).length % 64 = 0 := by rw [List.length_append, List.length_singleton]; omega
  have hlen64 : s.pendingLen.toNat < 64 := by rw [h.pendingLen]; omega
  have hblock : (s.stored b).block = blockAt (m ++ [b]) (m.length / 64) := Vector.ext fun k hk => by
    rw [State.block_getElem, h.stored_read b (by omega), blockAt, Vector.getElem_ofFn]
  refine ⟨by simpa using h.phase, by simpa using h.err, by simpa using State.stored_wf b h.wf hlen64, ?_, ?_, ?_,
    fun k hk => absurd hk (by omega), ?_⟩
  · rw [hmod, State.absorbedBlock_pendingLen]
    rfl
  · rw [hdiv, State.absorbedBlock_totalBits, State.countBits_totalBits_toNat, h.totalBits]
    omega
  · rw [State.absorbedBlock_ovf, State.countBits_ovf_iff, h.ovf, h.totalBits, List.length_append, List.length_singleton]
    omega
  · rw [hdiv, State.absorbedBlock_v, State.compress_v_eq_cf, hblock, State.stored_v, h.v, chain,
      chain_append _ (by omega)]

/-- One ABSORB more. -/
theorem Absorbed.exec_absorb : ∃ t, exec (.absorb b) s = .next t ∧ Absorbed (m ++ [b]) t := by
  have hlen := h.pendingLen
  by_cases hfull : m.length % 64 = 63
  · exact ⟨_, exec_absorb_block b h.phase (by omega), h.absorbedBlock b hfull⟩
  · exact ⟨_, exec_absorb_store b h.phase (by omega), h.stored b (by omega)⟩

end

/-- The rest of the bytes, one after the other. -/
theorem Absorbed.runInstrs_absorbBytes (l : List Byte) {m : List Byte} {s : State} (h : Absorbed m s) :
    ∃ t, runInstrs (absorbBytes l) s = .next t ∧ Absorbed (m ++ l) t := by
  induction l generalizing m s with
  | nil => exact ⟨s, rfl, by simpa using h⟩
  | cons b l ih =>
    obtain ⟨t, he, ht⟩ := h.exec_absorb b
    obtain ⟨u, hrun, hu⟩ := ih ht
    refine ⟨u, ?_, by simpa using hu⟩
    rw [← hrun, absorbBytes, List.map_cons, runInstrs, he]
    rfl

/-- Settles O56: INIT gives the state after no byte, and every ABSORB the state after one byte more; below `2^29` bytes the
counter's modulus is out of reach. -/
theorem stateAfterAbsorbing : Obligations.StateAfterAbsorbing := by
  intro m s hm
  obtain ⟨t, hrun, h⟩ := (absorbed_initialise hm).runInstrs_absorbBytes m
  rw [List.nil_append] at h
  refine ⟨t, ?_, h.phase, h.err, h.pendingLen, h.totalBits, h.ovf, h.tail, h.v, fun hlen => ⟨?_, ?_⟩⟩
  · rw [runInstrs, exec_init]
    exact hrun
  · exact Bool.eq_false_of_not_eq_true fun ho => absurd (h.ovf.mp ho) (by omega)
  · rw [h.totalBits]
    omega

end Sys2Proof.Machine
end

section
/-! PROOFS. The pending buffer (20_memory.md R40 to R43): the bytes of a big-endian read, and the canonical form kept by
every step. -/

namespace Sys2Proof.Machine

/-! What a 4-byte read returns. -/

/-- Byte `k` of the word read at `4j` is the byte at `4j + k`: big-endian. -/
theorem State.bytes32_memRead4 (s : State) (j : Fin 16) (k : Fin 4) :
    bytes32 (s.memRead4 j) k = s.pending.read (4 * j.val + k.val) := by
  rw [State.memRead4, bytes32_be32]
  fin_cases k <;> rfl

/-- Settles O41: LDW writes the word read at `4 (a div 4)`, and byte `a mod 4` of it stands at `a`. -/
theorem loadWordIsBigEndian : Obligations.LoadWordIsBigEndian := by
  intro s a
  refine ⟨?_, fun i h hi => ?_⟩
  · have hbyte := s.bytes32_memRead4 ⟨a.val / 4, by omega⟩ ⟨a.val % 4, by omega⟩
    rw [execMicro_ldw_w, Vector.getElem_set_self]
    rwa [Nat.div_add_mod] at hbyte
  · rw [execMicro_ldw_w, Vector.getElem_set_ne _ _ hi.symm]

/-! Where a step that goes on leads. -/

/-- A step that goes on waits, resets the engine, or runs a command along one of its paths. -/
theorem step_next_cases {s t : State} (h : step s = .next t) :
    t = s ∨ ∃ rest, t = s.setInputs rest ∨ t = (s.setInputs rest).hardwareReset ∨
      ∃ i, ExecPath i (s.setInputs rest) t := by
  rcases step_cases s with ⟨_, he⟩ | ⟨p, rest, _, ⟨_, he⟩ | ⟨_, _, he⟩ | ⟨_, _, he⟩⟩ <;> rw [he] at h
  · cases h
    exact .inl rfl
  · cases h
    exact .inr ⟨rest, .inr (.inl rfl)⟩
  · exact .inr ⟨rest, .inr (.inr ⟨_, execPath_of_exec h⟩)⟩
  · cases h
    exact .inr ⟨rest, .inl rfl⟩

/-- Settles O52: waiting leaves the buffer alone, a reset draws a canonical one, and every path of a command keeps the
form. -/
theorem everyStepKeepsTheMemoryForm : Obligations.EveryStepKeepsTheMemoryForm := by
  intro s t hm h
  rcases step_next_cases h with rfl | ⟨rest, rfl | rfl | ⟨i, hpath⟩⟩
  · exact hm
  · exact hm
  · exact freePending_wf s.draws
  · exact hpath.wf_pending hm

end Sys2Proof.Machine
end

section
/-! PROOFS. The decoder and the encoder (30_encoding.md R61 to R64): a command word is its operation code beside its data
bits, the decoder's answer for each operation code, and the rows of the opcode table, told apart by their operation codes.
Then the statements about them. -/

namespace Sys2Proof

open Machine (toNat_append_eq_mul_add)

/-! A word and its two fields (R61). -/

theorem opField_toNat (w : CmdWord) : (opField w).toNat = w.toNat / 256 := by
  simp only [opField, BitVec.extractLsb'_toNat, Nat.shiftRight_eq_div_pow]
  omega

theorem dataField_toNat (w : CmdWord) : (dataField w).toNat = w.toNat % 256 := by
  simp [dataField]

theorem opField_append_dataField (w : CmdWord) : opField w ++ dataField w = w := by
  apply BitVec.eq_of_toNat_eq
  rw [toNat_append_eq_mul_add, opField_toNat, dataField_toNat]
  omega

@[simp] theorem opField_append (o : BitVec 2) (b : Byte) : opField (o ++ b) = o := by
  apply BitVec.eq_of_toNat_eq
  rw [opField_toNat, toNat_append_eq_mul_add]
  omega

@[simp] theorem dataField_append (o : BitVec 2) (b : Byte) : dataField (o ++ b) = b := by
  apply BitVec.eq_of_toNat_eq
  rw [dataField_toNat, toNat_append_eq_mul_add]
  omega

/-- The mask of every row of the table keeps the operation code and clears the data bits (R62). -/
theorem and_opMask (w : CmdWord) : w &&& 0x300#10 = opField w ++ 0#8 := by
  have hmask : 0x300#10 = BitVec.allOnes 2 ++ 0#8 := by decide
  rw [hmask, ← opField_append_dataField w, BitVec.and_append, BitVec.and_allOnes, BitVec.and_zero, opField_append]

theorem encode_absorb (b : Byte) : encode (.absorb b) = 0b10#2 ++ b := by
  apply BitVec.eq_of_toNat_eq
  simp only [encode, toNat_append_eq_mul_add, BitVec.toNat_add, BitVec.toNat_setWidth, BitVec.toNat_ofNat]
  omega

theorem encode_absorb_toNat (b : Byte) : (encode (.absorb b)).toNat = 0x200 + b.toNat := by
  rw [encode_absorb, toNat_append_eq_mul_add]
  rfl

/-! The decoder, by operation code (R62). -/

/-- Everything the decoder can answer. -/
theorem decode_cases (w : CmdWord) :
    (opField w = 0b00#2 ∧ decode w = .nop) ∨ (opField w = 0b01#2 ∧ decode w = .init) ∨
    (opField w = 0b10#2 ∧ decode w = .absorb (dataField w)) ∨ (opField w = 0b11#2 ∧ decode w = .finalize) := by
  have hop : ∀ o : BitVec 2, o = 0b00#2 ∨ o = 0b01#2 ∨ o = 0b10#2 ∨ o = 0b11#2 := by decide
  rcases hop (opField w) with h | h | h | h <;> simp [decode, h]

theorem decode_of_opField_eq_absorb {w : CmdWord} (h : opField w = 0b10#2) : decode w = .absorb (dataField w) := by
  simp [decode, h]

theorem decode_encode (i : Instr) : decode (encode i) = i := by
  cases i with
  | nop => rfl
  | init => rfl
  | absorb b => rw [encode_absorb, decode_of_opField_eq_absorb (opField_append _ b), dataField_append]
  | finalize => rfl

/-- Encoding a decoded word keeps ABSORB's data bits and clears the ignored ones (R64). -/
theorem encode_decode (w : CmdWord) : encode (decode w) = if opField w = 0b10#2 then w else w &&& 0x300#10 := by
  rw [and_opMask]
  rcases decode_cases w with ⟨ho, hd⟩ | ⟨ho, hd⟩ | ⟨ho, hd⟩ | ⟨ho, hd⟩
  · rw [hd, ho]
    rfl
  · rw [hd, ho]
    rfl
  · rw [hd, if_pos ho, encode_absorb, ← ho, opField_append_dataField]
  · rw [hd, ho]
    rfl

theorem opField_encode_decode (w : CmdWord) : opField (encode (decode w)) = opField w := by
  rw [encode_decode, and_opMask]
  split
  · rfl
  · exact opField_append _ _

theorem decodeNat_eq (w : Nat) :
    decodeNat w = if w < 1024 then .ok (decode (BitVec.ofNat 10 w)) else .error .wordTooWide := by
  simp [decodeNat, wordFits]

theorem decodeNat_toNat (w : CmdWord) : decodeNat w.toNat = .ok (decode w) := by
  rw [decodeNat_eq, if_pos w.isLt, BitVec.ofNat_toNat, BitVec.setWidth_eq]

theorem decodeTableWord_toNat (w : CmdWord) : decodeTableWord 16 w.toNat = some (decode w) := by
  rw [decodeTableWord, Nat.mod_eq_of_lt (by omega), decodeNat_toNat]

/-- Settles O2: the round trips through the two fields of a word, and the range test of the decoder of numbers. -/
theorem decodeAndEncodeAgree : Obligations.DecodeAndEncodeAgree :=
  ⟨fun i _ => ⟨decode_encode i, by rw [decodeTableWord_toNat, decode_encode]⟩, encode_decode, decodeNat_eq⟩

/-- Settles O3: the decoder run on the eight words. -/
theorem specWordsDecode : Obligations.SpecWordsDecode := by
  unfold Obligations.SpecWordsDecode
  decide

/-- Settles O4: `decode` looks at the operation code alone but for ABSORB, whose operand is the low byte. -/
theorem dataBitsMatterToAbsorbOnly : Obligations.DataBitsMatterToAbsorbOnly := by
  refine ⟨fun w w' h hop => ?_, fun w hop => ⟨dataField w, decode_of_opField_eq_absorb hop, fun n hn => ?_⟩⟩
  · have hop' : opField w' ≠ 0b10#2 := h ▸ hop
    simp only [decode, h, if_neg hop']
  · simp [dataField, hn]

/-! The opcode table (R62). -/

/-- A row of the table is selected by the words that carry the operation code of its pattern. -/
theorem OpcodeRow.selectedBy_iff {r : OpcodeRow} (hr : r ∈ opcodeRows) (w : CmdWord) :
    r.selectedBy w = true ↔ opField w = opField r.pattern := by
  have hrow : ∀ r ∈ opcodeRows, r.mask = 0x300#10 ∧ r.pattern = opField r.pattern ++ 0#8 := by decide
  obtain ⟨hmask, hpattern⟩ := hrow r hr
  rw [OpcodeRow.selectedBy, decide_eq_true_eq, hmask, and_opMask]
  constructor
  · intro h
    rw [← h, opField_append]
  · intro h
    rw [h, ← hpattern]

theorem OpcodeRow.eq_of_opField_eq : ∀ r ∈ opcodeRows, ∀ r' ∈ opcodeRows,
    opField r.pattern = opField r'.pattern → r = r' := by
  decide

/-- The row of a command: it bears the command's mnemonic and the operation code of its canonical word. -/
theorem exists_row_of_instr (i : Instr) :
    ∃ r ∈ opcodeRows, r.mnemonic = i.mnemonic ∧ opField r.pattern = opField (encode i) := by
  have hrow : Laws.RowMatch.Statement i := by
    cases i with
    | nop => exact Laws.RowMatch.nop
    | init => exact Laws.RowMatch.init
    | absorb b => exact Laws.RowMatch.absorb b
    | finalize => exact Laws.RowMatch.finalize
  obtain ⟨r, hr, hname, _, hop⟩ := hrow
  exact ⟨r, hr, hname, hop⟩

/-- Settles O1: the row of the decoded command is selected, and the rows have different operation codes. -/
theorem everyWordSelectsExactlyOneRow : Obligations.EveryWordSelectsExactlyOneRow := by
  refine ⟨fun w => ?_, rfl, rfl, rfl, rfl, encode_absorb_toNat⟩
  obtain ⟨r, hr, hname, hop⟩ := exists_row_of_instr (decode w)
  have hrow : opField w = opField r.pattern := (hop.trans (opField_encode_decode w)).symm
  refine ⟨r, hr, (OpcodeRow.selectedBy_iff hr w).2 hrow, hname, fun r' hr' hsel => ?_⟩
  exact OpcodeRow.eq_of_opField_eq r' hr' r hr (((OpcodeRow.selectedBy_iff hr' w).1 hsel).symm.trans hrow)

end Sys2Proof
end

section
/-! PROOFS. The command scripts (30_encoding.md R66, R67): the line that each list of words spells, the commands a line of
text stands for, and the expansions of the pseudo-commands. Then the statements about them. -/

namespace Sys2Proof.Machine

/-! The lines that lists of words spell. -/

theorem lineOfWords_absorb {b : Byte} {t : List Char} (ht : t ∈ byteTexts b) :
    lineOfWords ["ABSORB".toList, t] = .ok (some (.absorb b.toNat)) := by
  obtain ⟨_, _, hread, _⟩ := byteTexts_spec b t ht
  simp [lineOfWords, hread]

section
variable {ps : List (Byte × List Char)}

theorem mapM_readByte (h : ∀ p ∈ ps, p.2 ∈ byteTexts p.1) :
    (ps.map Prod.snd).mapM readByte = some ((ps.map Prod.fst).map BitVec.toNat) := by
  induction ps with
  | nil => rfl
  | cons p ps ih =>
    obtain ⟨_, _, hread, _⟩ := byteTexts_spec _ _ (h p List.mem_cons_self)
    simp [hread, ih fun q hq => h q (List.mem_cons_of_mem p hq)]

theorem mapM_readHashOperand (h : ∀ p ∈ ps, p.2 ∈ byteTexts p.1) :
    (ps.map Prod.snd).mapM readHashOperand = some ((ps.map Prod.fst).map fun b => [b.toNat]) := by
  induction ps with
  | nil => rfl
  | cons p ps ih =>
    obtain ⟨_, _, hread, hnoText⟩ := byteTexts_spec _ _ (h p List.mem_cons_self)
    simp [readHashOperand, hread, hnoText, ih fun q hq => h q (List.mem_cons_of_mem p hq)]

theorem lineOfWords_absorbN (h : ∀ p ∈ ps, p.2 ∈ byteTexts p.1) :
    lineOfWords ("ABSORBN".toList :: ps.map Prod.snd) =
      .ok (some (.absorbN ((ps.map Prod.fst).map BitVec.toNat))) := by
  simp [lineOfWords, mapM_readByte h]

theorem lineOfWords_hash (h : ∀ p ∈ ps, p.2 ∈ byteTexts p.1) :
    lineOfWords ("HASH".toList :: ps.map Prod.snd) = .ok (some (.hash ((ps.map Prod.fst).map BitVec.toNat))) := by
  rw [List.map_eq_flatMap (f := BitVec.toNat), List.flatMap]
  simp [lineOfWords, mapM_readHashOperand h]

end

theorem lineOfWords_absorbS (text : List Char) :
    lineOfWords ["ABSORBS".toList, '"' :: text ++ ['"']] = .ok (some (.absorbS text)) := by
  simp [lineOfWords, readText]

/-! The commands that lines of text stand for. -/

/-- A text whose words spell a well-formed line stands for what the line stands for. -/
theorem assembleLine_of_lineOfWords {text : List Char} {ws : List (List Char)} {l : ScriptLine}
    (hwords : lineWords .plain [] text = ws) (hline : lineOfWords ws = .ok (some l)) (hwf : l.wellFormed = true) :
    assembleLine text = .ok l.expand := by
  simp [assembleLine, hwords, hline, hwf]

theorem all_byteFits_toNat (bs : List Byte) : (bs.map BitVec.toNat).all byteFits = true := by
  rw [List.all_map, List.all_eq_true]
  exact fun b _ => decide_eq_true b.isLt

theorem map_ofNat_toNat (bs : List Byte) : (bs.map BitVec.toNat).map (BitVec.ofNat 8) = bs := by
  simp [Function.comp_def]

/-- ABSORB and a text of its byte, the line ended or a comment after it. -/
theorem assembleLine_absorb {b : Byte} {t rest : List Char} (ht : t ∈ byteTexts b) (hr : EndsLine rest) :
    assembleLine ("ABSORB ".toList ++ t ++ rest) = .ok [.absorb b] := by
  have hwords : lineWords .plain [] ("ABSORB ".toList ++ t ++ rest) = ["ABSORB".toList, t] := by
    simpa using lineWords_operands "ABSORB".toList (by decide) (by decide) [(b, t)] (by simpa using ht) rest hr
  have hwf : (ScriptLine.absorb b.toNat).wellFormed = true := decide_eq_true b.isLt
  rw [assembleLine_of_lineOfWords hwords (lineOfWords_absorb ht) hwf, ScriptLine.expand, BitVec.ofNat_toNat,
    BitVec.setWidth_eq]

/-- The text of a command, the line ended or a comment after it. -/
theorem assembleLine_scriptText (i : Instr) {rest : List Char} (hr : EndsLine rest) :
    assembleLine (Instr.scriptText i ++ rest) = .ok [i] := by
  cases i with
  | nop => exact assembleLine_of_lineOfWords (lineWords_one _ rest (by decide) (by decide) hr) (l := .nop) rfl rfl
  | init => exact assembleLine_of_lineOfWords (lineWords_one _ rest (by decide) (by decide) hr) (l := .init) rfl rfl
  | absorb b => exact assembleLine_absorb (b := b) List.mem_cons_self hr
  | finalize =>
    exact assembleLine_of_lineOfWords (lineWords_one _ rest (by decide) (by decide) hr) (l := .finalize) rfl rfl

theorem assembleLine_comment (c : List Char) : assembleLine (';' :: c) = .ok [] := rfl

theorem assemble_cons_ok {l : List Char} {is : List Instr} (h : assembleLine l = .ok is) (ls : List (List Char)) :
    assemble (l :: ls) = (assemble ls).map (is ++ ·) := by
  rw [assemble, h]

theorem assemble_scriptText (l : List Instr) : assemble (l.map Instr.scriptText) = .ok l := by
  induction l with
  | nil => rfl
  | cons i l ih =>
    have hline : assembleLine (Instr.scriptText i) = .ok [i] := by simpa using assembleLine_scriptText i (.inl rfl)
    rw [List.map_cons, assemble_cons_ok hline, ih]
    rfl

/-- Settles O5: each text falls into the mnemonic and its operand, and a script is read line by line. -/
theorem assemblerReadsCommandText : Obligations.AssemblerReadsCommandText := by
  refine ⟨fun i => ?_, fun b t ht => ?_, fun i c => ⟨?_, ?_, assembleLine_comment c⟩, fun b t c ht => ?_,
    assemble_scriptText⟩
  · simpa using assembleLine_scriptText i (.inl rfl)
  · simpa using assembleLine_absorb ht (.inl rfl)
  · exact assembleLine_scriptText i (.inr (.inl ⟨c, rfl⟩))
  · exact assembleLine_scriptText i (.inr (.inr ⟨c, rfl⟩))
  · exact assembleLine_absorb ht (.inr (.inr ⟨c, rfl⟩))

/-! The pseudo-commands (R67). -/

section
variable {ps : List (Byte × List Char)}

theorem lineWords_byteOperands {m : List Char} (hm : m ≠ []) (hp : m.all plainChar = true)
    (h : ∀ p ∈ ps, p.2 ∈ byteTexts p.1) :
    lineWords .plain [] (m ++ ps.flatMap fun p => ' ' :: p.2) = m :: ps.map Prod.snd := by
  simpa using lineWords_operands m hm hp ps h [] (.inl rfl)

theorem assembleLine_absorbN (h : ∀ p ∈ ps, p.2 ∈ byteTexts p.1) :
    assembleLine ("ABSORBN".toList ++ ps.flatMap fun p => ' ' :: p.2) = .ok (absorbBytes (ps.map Prod.fst)) := by
  rw [assembleLine_of_lineOfWords (lineWords_byteOperands (by decide) (by decide) h) (lineOfWords_absorbN h)
    (all_byteFits_toNat _), ScriptLine.expand, map_ofNat_toNat]

theorem assembleLine_hash (h : ∀ p ∈ ps, p.2 ∈ byteTexts p.1) :
    assembleLine ("HASH".toList ++ ps.flatMap fun p => ' ' :: p.2) = .ok (hashCommands (ps.map Prod.fst)) := by
  rw [assembleLine_of_lineOfWords (lineWords_byteOperands (by decide) (by decide) h) (lineOfWords_hash h)
    (all_byteFits_toNat _), ScriptLine.expand, map_ofNat_toNat]

end

theorem lineWords_absorbS {text : List Char} (h : '"' ∉ text) :
    lineWords .plain [] ("ABSORBS \"".toList ++ text ++ ['"']) = ["ABSORBS".toList, '"' :: text ++ ['"']] :=
  calc lineWords .plain [] ("ABSORBS \"".toList ++ text ++ ['"'])
      = lineWords .plain "ABSORBS".toList.reverse (' ' :: '"' :: (text ++ ['"'])) := by
        simpa using lineWords_plain "ABSORBS".toList (by decide) [] (' ' :: '"' :: (text ++ ['"']))
    _ = "ABSORBS".toList :: lineWords .inText ['"'] (text ++ ['"']) := lineWords_blank _ _ (by decide)
    _ = ["ABSORBS".toList, '"' :: text ++ ['"']] := congrArg _ (lineWords_inText text h ['"'])

theorem assembleLine_absorbS {text : List Char} (hascii : text.all charFits = true) (h : '"' ∉ text) :
    assembleLine ("ABSORBS \"".toList ++ text ++ ['"']) =
      .ok (absorbBytes (text.map fun c => BitVec.ofNat 8 c.toNat)) :=
  assembleLine_of_lineOfWords (lineWords_absorbS h) (lineOfWords_absorbS text) hascii

/-- Settles O59: the operands are read byte by byte, the text as a whole, and the line expands as R67 says. -/
theorem assemblerReadsPseudoCommandText : Obligations.AssemblerReadsPseudoCommandText :=
  ⟨fun _ h => ⟨assembleLine_absorbN h, assembleLine_hash h⟩, fun _ => assembleLine_absorbS⟩

/-- Settles O6: the three expansions, as maps over the bytes. -/
theorem pseudoCommandExpansions : Obligations.PseudoCommandExpansions := by
  refine ⟨fun ns _ => ?_, fun cs => ?_, fun ns => rfl⟩
  · simp [ScriptLine.expand, absorbBytes, Function.comp_def]
  · simp [ScriptLine.expand, Function.comp_def]

end Sys2Proof.Machine
end

section
/-! PROOFS. What a step does with the word on the port (30_encoding.md R60): the two statements, from the step lemmas. -/

namespace Sys2Proof.Machine

/-- Settles O7, from the step lemma for an issued command. -/
theorem stepRunsTheIssuedCommand : Obligations.StepRunsTheIssuedCommand :=
  fun _ _ _ h hr hv => step_of_cmdValid h hr hv

/-- Settles O8, from the step lemmas for an empty queue and for a moment at which nothing is asked. -/
theorem stepWaitsWithoutACommand : Obligations.StepWaitsWithoutACommand :=
  ⟨fun _ => step_of_inputs_nil, fun _ _ _ h hr hv => step_of_quiet h hr hv⟩

end Sys2Proof.Machine
end

section
/-! PROOFS. What steers the engine never depends on message content (40_commands_init_absorb.md R86): every operation takes two
states with the same control to two such states, whatever their buffers and register banks hold and whatever byte each
stores, so every command does. -/

namespace Sys2Proof.Machine

namespace SameControl

variable {s s' : State}

theorem pendingLen (h : SameControl s s') : s.pendingLen = s'.pendingLen := h.1

theorem ovf (h : SameControl s s') : s.ovf = s'.ovf := h.2.2.1

theorem phase (h : SameControl s s') : s.phase = s'.phase := h.2.2.2.2

/-- INIT writes every one of these fields, so it needs no agreement before. -/
theorem initialise (s s' : State) : SameControl s.initialise s'.initialise := by
  simp [SameControl]

theorem raiseFault (h : SameControl s s') (c : ErrCode) : SameControl (s.raiseFault c) (s'.raiseFault c) := by
  obtain ⟨hlen, hbits, hovf, herr, hphase⟩ := h
  simp [SameControl, *]

theorem setPendingLen (h : SameControl s s') (x : BitVec 7) : SameControl (s.setPendingLen x) (s'.setPendingLen x) := by
  obtain ⟨_, hrest⟩ := h
  exact ⟨rfl, hrest⟩

theorem setPhase (h : SameControl s s') (p : Phase) : SameControl (s.setPhase p) (s'.setPhase p) := by
  obtain ⟨hlen, hbits, hovf, herr, _⟩ := h
  exact ⟨hlen, hbits, hovf, herr, rfl⟩

theorem countBits (h : SameControl s s') (n : Nat) : SameControl (s.countBits n) (s'.countBits n) := by
  obtain ⟨hlen, hbits, hovf, herr, hphase⟩ := h
  simp [SameControl, *]

theorem countTail (h : SameControl s s') : SameControl s.countTail s'.countTail := by
  unfold State.countTail
  rw [← h.pendingLen]
  exact h.countBits _

/-- The two stored bytes may differ: the fill count alone moves. -/
theorem stored (h : SameControl s s') (b b' : Byte) : SameControl (s.stored b) (s'.stored b') := by
  obtain ⟨hlen, hrest⟩ := h
  exact ⟨congrArg (· + 1) hlen, hrest⟩

theorem fill (h : SameControl s s') (lo hi : Nat) : SameControl (s.fill lo hi) (s'.fill lo hi) := h

theorem memWrite8 (h : SameControl s s') (x x' : BitVec 64) : SameControl (s.memWrite8 x) (s'.memWrite8 x') := h

/-- A compression writes none of these fields. -/
theorem compress (h : SameControl s s') : SameControl s.compress s'.compress := by
  simpa [SameControl] using h

/-- Whether the buffer is full is told by the fill count. -/
theorem absorbBlockIfFull (h : SameControl s s') : SameControl s.absorbBlockIfFull s'.absorbBlockIfFull := by
  unfold State.absorbBlockIfFull
  rw [← h.pendingLen]
  split
  · exact (h.compress.countBits _).setPendingLen 0
  · exact h

/-- Whether there is a first padding block is told by the fill count. -/
theorem padFirstBlock (h : SameControl s s') : SameControl s.padFirstBlock s'.padFirstBlock := by
  unfold State.padFirstBlock
  rw [← h.pendingLen]
  split
  · exact (h.fill _ _).compress.setPendingLen 0
  · exact h

theorem padLastBlock (h : SameControl s s') : SameControl s.padLastBlock s'.padLastBlock := by
  unfold State.padLastBlock
  rw [← h.pendingLen]
  exact (((h.fill _ _).memWrite8 _ _).compress.setPendingLen 0).setPhase .done

theorem execAbsorb (h : SameControl s s') (b b' : Byte) :
    OutcomeRel SameControl (Machine.execAbsorb b s) (Machine.execAbsorb b' s') := by
  refine .whenActive h.phase (fun _ => h.raiseFault _) fun _ => ?_
  exact .storeThen h.pendingLen fun _ => (h.stored b b').absorbBlockIfFull

theorem execFinalize (h : SameControl s s') :
    OutcomeRel SameControl (Machine.execFinalize s) (Machine.execFinalize s') := by
  refine .whenActive h.phase (fun _ => h.raiseFault _) fun _ => ?_
  rw [← h.countTail.ovf]
  split
  · exact (h.countTail.setPhase .done).raiseFault _
  · exact .storeThen h.countTail.pendingLen fun _ => (h.countTail.stored _ _).padFirstBlock.padLastBlock

end SameControl

/-- The mnemonic tells a command but for ABSORB's byte. -/
theorem eq_or_absorb_of_mnemonic_eq {i i' : Instr} (h : i.mnemonic = i'.mnemonic) :
    i = i' ∨ ∃ b b', i = .absorb b ∧ i' = .absorb b' := by
  cases i with
  | absorb b =>
    cases i' with
    | absorb b' => exact .inr ⟨b, b', rfl, rfl⟩
    | _ => simp [Instr.mnemonic] at h
  | nop =>
    cases i' with
    | nop => exact .inl rfl
    | _ => simp [Instr.mnemonic] at h
  | init =>
    cases i' with
    | init => exact .inl rfl
    | _ => simp [Instr.mnemonic] at h
  | finalize =>
    cases i' with
    | finalize => exact .inl rfl
    | _ => simp [Instr.mnemonic] at h

/-- Settles O53, command by command; the bytes of the two ABSORBs are any two. -/
theorem controlIgnoresMessageContent : Obligations.ControlIgnoresMessageContent := by
  intro i i' s s' hi h
  obtain rfl | ⟨b, b', rfl, rfl⟩ := eq_or_absorb_of_mnemonic_eq hi
  · cases i with
    | nop => exact h
    | init => exact .initialise s s'
    | absorb b => exact h.execAbsorb b b
    | finalize => exact h.execFinalize
  · exact h.execAbsorb b b'

end Sys2Proof.Machine
end

section
/-! PROOFS. The commands NOP, INIT and ABSORB one by one, and sequences of them (40_commands_init_absorb.md R81 to R84). -/

namespace Sys2Proof

theorem decode_of_opField_eq_nop {w : CmdWord} (h : opField w = 0b00#2) : decode w = .nop := if_pos h

theorem decode_of_opField_eq_init {w : CmdWord} (h : opField w = 0b01#2) : decode w = .init := by
  simp [decode, h]

end Sys2Proof

namespace Sys2Proof.Machine

/-! NOP and INIT. -/

/-- Settles O12: the word decodes to NOP, which goes on with the state it is given. -/
theorem nopLeavesTheState : Obligations.NopLeavesTheState := by
  intro w s h
  rw [decode_of_opField_eq_nop h, exec_nop]

theorem State.initialise_status (s : State) : s.initialise.status = 0x0001#16 := by
  have hdv : s.initialise.digestValid = false := State.digestValid_of_phase_ne (by simp)
  exact BitVec.eq_of_toNat_eq (by simp [State.status_toNat, hdv, errCodeBits, phaseCode])

/-- From a canonical buffer INIT gives the constants of R82 in the persistent elements, and keeps the rest. -/
theorem State.initialise_eq {s : State} (hm : Memory.wf s.pending = true) :
    s.initialise = { s with
      v := Config.iv, pending := [], pendingLen := 0, totalBits := 0, ovf := false, err := .none, phase := .active } := by
  ext1 <;> simp [State.fill_all s hm]

/-- Settles O13: the fields that INIT writes hold constants, so two states that agree on the others become one, and INIT
finds its own constants there when it comes again. -/
theorem initMakesAFreshState : Obligations.InitMakesAFreshState := by
  refine ⟨fun w s hop hm => ?_, fun s s' hm hm' hw hwp hwork ht hj hin hdraws => ?_, fun s t hm h => ?_⟩
  · have hdv : s.initialise.digestValid = false := State.digestValid_of_phase_ne (by simp)
    refine ⟨s.initialise, by rw [decode_of_opField_eq_init hop, exec_init], by simp, fun a _ => ?_,
      by simp [s.initialise_status, hdv]⟩
    rw [s.initialise_pending_nil hm]
    rfl
  · rw [exec_init, exec_init, State.initialise_eq hm, State.initialise_eq hm', hw, hwp, hwork, ht, hj, hin, hdraws]
  · cases h
    have hm' : Memory.wf s.initialise.pending = true := s.initialise_pending_nil hm ▸ Memory.wf_nil
    rw [exec_init, State.initialise_eq hm', State.initialise_eq hm]

/-! ABSORB. -/

/-- Settles O14: the path with room left, and the rules of the store. -/
theorem absorbStoresAByte : Obligations.AbsorbStoresAByte := by
  intro b s hp hlen hm
  exact ⟨s.stored b, exec_absorb_store b hp (by omega), State.stored_read b hm, State.stored_wf b hm (by omega),
    s.stored_pendingLen_toNat b (by omega), rfl⟩

/-! Sequences of commands. -/

theorem runInstrs_cons_next {i : Instr} {s t : State} (h : exec i s = .next t) (l : List Instr) :
    runInstrs (i :: l) s = runInstrs l t := by
  rw [runInstrs, h]

/-- The rest of a sequence depends on the command before it through that command's outcome only. -/
theorem runInstrs_cons_congr {l l' : List Instr} (h : ∀ s, runInstrs l s = runInstrs l' s) (i : Instr) (s : State) :
    runInstrs (i :: l) s = runInstrs (i :: l') s := by
  rw [runInstrs, runInstrs]
  split
  · exact h _
  · rfl
  · rfl

theorem runInstrs_append_next {l : List Instr} {s t : State} (h : runInstrs l s = .next t) (l' : List Instr) :
    runInstrs (l ++ l') s = runInstrs l' t := by
  induction l generalizing s with
  | nil =>
    cases h
    rfl
  | cons i l ih =>
    cases he : exec i s with
    | next u =>
      rw [runInstrs_cons_next he] at h
      rw [List.cons_append, runInstrs_cons_next he, ih h]
    | fault r => simp [runInstrs, he] at h
    | refused r => simp [runInstrs, he] at h

theorem runInstrs_filter_ne_nop (l : List Instr) (s : State) :
    runInstrs (l.filter fun i => decide (i ≠ .nop)) s = runInstrs l s := by
  induction l generalizing s with
  | nil => rfl
  | cons i l ih =>
    by_cases hi : i = .nop
    · rw [List.filter_cons_of_neg (by simpa using hi), hi, runInstrs_cons_next (exec_nop s), ih]
    · rw [List.filter_cons_of_pos (by simpa using hi)]
      exact runInstrs_cons_congr ih i s

/-- Settles O55: a NOP goes on with the state it is given, and a sequence goes on from where the one before it ended. -/
theorem chunkingInvariance : Obligations.ChunkingInvariance := by
  refine ⟨runInstrs_filter_ne_nop, fun x y s t h => ?_⟩
  rw [absorbBytes, absorbBytes, List.map_append]
  exact (runInstrs_append_next h _).symm

end Sys2Proof.Machine
end

section
/-! PROOFS. The command FINALIZE (41_finalize_padding.md R90 to R94): the condition of each of its two paths in phase ACTIVE,
the state that the failing one gives, where the padding stores, and the blocks that the padding lays out. -/

namespace Sys2Proof.Machine

/-! Which path is taken. -/

theorem exec_finalize_tooLong {s : State} (hp : s.phase = .active) (hovf : s.countTail.ovf = true) :
    exec .finalize s = .next s.tooLong := by
  rcases execFinalize_cases s with ⟨hn, _⟩ | ⟨_, _, he⟩ | ⟨_, hno, _⟩ | ⟨_, hno, _⟩
  · exact absurd hp hn
  · exact he
  · simp [hovf] at hno
  · simp [hovf] at hno

theorem exec_finalize_finished {s : State} (hp : s.phase = .active) (hovf : s.countTail.ovf = false)
    (hlen : s.pendingLen.toNat < 64) : exec .finalize s = .next s.finished := by
  rcases execFinalize_cases s with ⟨hn, _⟩ | ⟨_, hyes, _⟩ | ⟨_, _, _, he⟩ | ⟨_, _, _, _⟩
  · exact absurd hp hn
  · simp [hovf] at hyes
  · exact he
  · omega

theorem State.countTail_ovf_iff (s : State) :
    s.countTail.ovf = true ↔ s.ovf = true ∨ 2 ^ 32 ≤ s.totalBits.toNat + 8 * s.pendingLen.toNat :=
  s.countBits_ovf_iff _

section
variable {s : State} (hlt : s.totalBits.toNat + 8 * s.pendingLen.toNat < 2 ^ 32)
include hlt

theorem State.countTail_ovf_of_lt (hovf : s.ovf = false) : s.countTail.ovf = false :=
  Bool.eq_false_of_not_eq_true fun h => (s.countTail_ovf_iff.mp h).elim (by simp [hovf]) (by omega)

/-- Without a carry the counter holds the bit length. -/
theorem State.finished_totalBits_toNat_of_lt :
    s.finished.totalBits.toNat = s.totalBits.toNat + 8 * s.pendingLen.toNat := by
  rw [State.finished_totalBits, State.countTail_totalBits, State.countBits_totalBits_toNat, Nat.mod_eq_of_lt hlt]

end

/-- The whole state at the end of the failing path (R132, R136). -/
theorem State.tooLong_eq {s : State} (hovf : s.countTail.ovf = true) :
    s.tooLong = { s with
      totalBits := s.totalBits + BitVec.ofNat 32 (8 * s.pendingLen.toNat)
      ovf := true
      phase := .done
      err := if s.err = .none then .inputTooLarge else s.err } := by
  ext1 <;> simp [State.tooLong, hovf]

@[simp] theorem State.finished_inputs (s : State) : s.finished.inputs = s.inputs := by
  simp [State.finished]

/-! The state after the marker (R90 steps 1 and 2). -/

/-- The state with the tail counted and the marker stored. -/
def State.marked (s : State) : State := s.countTail.stored Config.marker

theorem State.finished_eq (s : State) : s.finished = s.marked.padFirstBlock.padLastBlock := (rfl)

@[simp] theorem State.marked_v (s : State) : s.marked.v = s.v := (rfl)
@[simp] theorem State.marked_totalBits (s : State) : s.marked.totalBits = s.countTail.totalBits := (rfl)

theorem State.marked_pendingLen_toNat (s : State) (hlen : s.pendingLen.toNat < 64) :
    s.marked.pendingLen.toNat = s.pendingLen.toNat + 1 := s.countTail.stored_pendingLen_toNat _ hlen

theorem State.marked_read_ne (s : State) {a : Nat} (h : a ≠ s.pendingLen.toNat) :
    s.marked.pending.read a = s.pending.read a := Memory.read_write_ne h

theorem State.marked_wf {s : State} (hm : Memory.wf s.pending = true) (hlen : s.pendingLen.toNat < 64) :
    Memory.wf s.marked.pending = true := State.stored_wf _ (by simpa) (by simpa)

theorem State.marked_read {s : State} (hm : Memory.wf s.pending = true) (a : Nat) :
    s.marked.pending.read a = if a = s.pendingLen.toNat then 0x80#8 else s.pending.read a :=
  State.stored_read _ (by simpa) a

/-! Where the padding stores, whatever the list of cells. -/

/-- A fold of operations that all leave an address alone leaves it alone. -/
theorem Memory.read_foldl {α : Type} {l : List α} {f : Memory → α → Memory} {x : Nat}
    (hf : ∀ m, ∀ k ∈ l, (f m k).read x = m.read x) (m : Memory) : (l.foldl f m).read x = m.read x :=
  l.foldlRecOn (motive := fun m' => m'.read x = m.read x) f rfl fun m' ih k hk => (hf m' k hk).trans ih

theorem State.fill_read_outside (s : State) {lo hi a : Nat} (h : a < lo ∨ 64 ≤ a) :
    (s.fill lo hi).pending.read a = s.pending.read a := by
  refine Memory.read_foldl (fun m k _ => ?_) s.pending
  split
  · exact Memory.read_write_ne (by omega)
  · rfl

theorem State.memWrite8_read_outside (s : State) (x : BitVec 64) {a : Nat} (h : a < 56 ∨ 64 ≤ a) :
    (s.memWrite8 x).pending.read a = s.pending.read a :=
  Memory.read_foldl (fun m k _ => Memory.read_write_ne (by simp only [Config.lengthOffset]; omega)) s.pending

theorem State.padFirstBlock_read_ge (s : State) {a : Nat} (h : 64 ≤ a) :
    s.padFirstBlock.pending.read a = s.pending.read a := by
  unfold State.padFirstBlock
  split
  · simpa using s.fill_read_outside (.inr h)
  · rfl

/-- The compression leaves the last block in the buffer. -/
theorem State.padLastBlock_pending (s : State) :
    s.padLastBlock.pending = ((s.fill s.pendingLen.toNat 56).memWrite8 (lengthField s.totalBits)).pending := by
  simp [State.padLastBlock]

theorem State.padLastBlock_read_outside (s : State) {a : Nat} (h : a < s.pendingLen.toNat ∧ a < 56 ∨ 64 ≤ a) :
    s.padLastBlock.pending.read a = s.pending.read a := by
  rw [State.padLastBlock_pending, State.memWrite8_read_outside _ _ (by omega), s.fill_read_outside (by omega)]

theorem State.finished_read_ge {s : State} (hlen : s.pendingLen.toNat < 64) {a : Nat} (h : 64 ≤ a) :
    s.finished.pending.read a = s.pending.read a := by
  rw [s.finished_eq, State.padLastBlock_read_outside _ (.inr h), State.padFirstBlock_read_ge _ h,
    s.marked_read_ne (by omega)]

/-- With at most 55 bytes pending there is no first block. -/
theorem State.finished_of_le {s : State} (hlen : s.pendingLen.toNat ≤ 55) : s.finished = s.marked.padLastBlock := by
  have hmarked := s.marked_pendingLen_toNat (by omega)
  rw [s.finished_eq, State.padFirstBlock_neg _ (by omega)]

theorem State.finished_read_lt {s : State} (hlen : s.pendingLen.toNat ≤ 55) {a : Nat} (h : a < s.pendingLen.toNat) :
    s.finished.pending.read a = s.pending.read a := by
  have hmarked := s.marked_pendingLen_toNat (by omega)
  rw [State.finished_of_le hlen, State.padLastBlock_read_outside _ (by omega), s.marked_read_ne (by omega)]

/-! The blocks. -/

section
variable (tail : Vector Byte 64) (L : Nat) (len : Word) {a : Nat} (ha : a < 64)

theorem onlyPadBlock_getElem : (onlyPadBlock tail L len)[a] =
    if a < L then tail[a] else if a = L then 0x80#8
    else if h : 60 ≤ a then bytes32 len ⟨a - 60, by omega⟩ else 0x00#8 := Vector.getElem_ofFn ha

theorem firstPadBlock_getElem :
    (firstPadBlock tail L)[a] = if a < L then tail[a] else if a = L then 0x80#8 else 0x00#8 := Vector.getElem_ofFn ha

theorem secondPadBlock_getElem :
    (secondPadBlock len)[a] = if h : 60 ≤ a then bytes32 len ⟨a - 60, by omega⟩ else 0x00#8 := Vector.getElem_ofFn ha

end

/-- The length field is big-endian, and its upper half is zero (R55, R90 step 5). -/
theorem bytes64_lengthField (x : Word) {a : Nat} (hlo : 56 ≤ a) (hhi : a < 64) :
    bytes64 (lengthField x) ⟨a - 56, by omega⟩ = if h : 60 ≤ a then bytes32 x ⟨a - 60, by omega⟩ else 0x00#8 := by
  have hfield : (lengthField x).toNat = x.toNat := BitVec.toNat_setWidth_of_le (by decide)
  apply BitVec.eq_of_toNat_eq
  rw [bytes64_toNat, hfield]
  split
  · rw [bytes32_toNat]
    simp only [show 56 - 8 * (a - 56) = 24 - 8 * (a - 60) by omega]
  · have hpow : 2 ^ 32 ≤ 2 ^ (56 - 8 * (a - 56)) := Nat.pow_le_pow_right (by decide) (by omega)
    rw [Nat.div_eq_of_lt (x.isLt.trans_le hpow)]
    rfl

theorem State.padLastBlock_read {s : State} (hm : Memory.wf s.pending = true) {a : Nat} (ha : a < 64) :
    s.padLastBlock.pending.read a =
      if h : 60 ≤ a then bytes32 s.totalBits ⟨a - 60, by omega⟩
      else if a < s.pendingLen.toNat ∧ a < 56 then s.pending.read a else 0x00#8 := by
  rw [State.padLastBlock_pending, State.memWrite8_read _ _ (s.fill_wf _ _ hm), s.fill_read _ _ hm]
  by_cases h56 : 56 ≤ a
  · rw [dif_pos ⟨h56, ha⟩, bytes64_lengthField _ h56 ha, if_neg (by omega)]
  · rw [dif_neg (by omega), dif_neg (by omega)]
    by_cases hlt : a < s.pendingLen.toNat
    · rw [if_neg (by omega), if_pos (by omega)]
    · rw [if_pos (by omega), if_neg (by omega)]

/-- The block of the last compression is the one it leaves in the buffer. -/
theorem State.padLastBlock_v (s : State) : s.padLastBlock.v = cf s.v s.padLastBlock.block := by
  rw [State.block_eq_of_read fun a _ => congrArg (Memory.read · a) s.padLastBlock_pending]
  simp [State.padLastBlock, State.compress_v_eq_cf]

theorem State.padLastBlock_block_of_empty {s : State} (hm : Memory.wf s.pending = true) (hlen : s.pendingLen = 0) :
    s.padLastBlock.block = secondPadBlock s.totalBits := by
  refine Vector.ext fun a ha => ?_
  rw [State.block_getElem, State.padLastBlock_read hm ha, secondPadBlock_getElem]
  simp [hlen]

section
variable {s : State} (hm : Memory.wf s.pending = true)
include hm

/-- The only block, with at most 55 bytes pending (R91). -/
theorem State.finished_block_of_le (hlen : s.pendingLen.toNat ≤ 55) :
    s.finished.block = onlyPadBlock s.block s.pendingLen.toNat s.finished.totalBits := by
  have hmarked := s.marked_pendingLen_toNat (by omega)
  refine Vector.ext fun a ha => ?_
  rw [State.finished_totalBits, State.finished_of_le hlen, State.block_getElem,
    State.padLastBlock_read (State.marked_wf hm (by omega)) ha, State.marked_read hm, onlyPadBlock_getElem,
    State.block_getElem, State.marked_totalBits]
  by_cases h60 : 60 ≤ a
  · simp only [dif_pos h60, if_neg (show ¬ a < s.pendingLen.toNat by omega),
      if_neg (show a ≠ s.pendingLen.toNat by omega)]
  · rw [dif_neg h60, dif_neg h60]
    rcases Nat.lt_trichotomy a s.pendingLen.toNat with hlt | heq | hgt
    · rw [if_pos (by omega), if_neg (by omega), if_pos hlt]
    · rw [if_pos (by omega), if_pos heq, if_neg (by omega), if_pos heq]
    · rw [if_neg (by omega), if_neg (by omega), if_neg (by omega)]

/-- The first of two blocks, with 56 bytes or more pending (R91). -/
theorem State.marked_padFirstBlock_v (hge : 56 ≤ s.pendingLen.toNat) (hlt : s.pendingLen.toNat < 64) :
    s.marked.padFirstBlock.v = cf s.v (firstPadBlock s.block s.pendingLen.toNat) := by
  have hmarked := s.marked_pendingLen_toNat hlt
  have hblock : (s.marked.fill s.marked.pendingLen.toNat 64).block = firstPadBlock s.block s.pendingLen.toNat := by
    refine Vector.ext fun a ha => ?_
    rw [State.block_getElem, State.fill_read _ _ _ (State.marked_wf hm hlt), State.marked_read hm, hmarked,
      firstPadBlock_getElem, State.block_getElem]
    rcases Nat.lt_trichotomy a s.pendingLen.toNat with h | h | h
    · rw [if_neg (by omega), if_neg (by omega), if_pos h]
    · rw [if_neg (by omega), if_pos h, if_neg (by omega), if_pos h]
    · rw [if_pos (by omega), if_neg (by omega), if_neg (by omega)]
  rw [State.padFirstBlock_pos _ (by omega), State.setPendingLen_v, State.compress_v_eq_cf, hblock, State.fill_v,
    State.marked_v]

theorem State.finished_block_of_ge (hge : 56 ≤ s.pendingLen.toNat) (hlt : s.pendingLen.toNat < 64) :
    s.finished.block = secondPadBlock s.finished.totalBits := by
  have hmarked := s.marked_pendingLen_toNat hlt
  have hempty : s.marked.padFirstBlock.pendingLen = 0 := by
    rw [State.padFirstBlock_pos _ (by omega), State.setPendingLen_pendingLen]
  rw [s.finished_eq, State.padLastBlock_totalBits,
    State.padLastBlock_block_of_empty (State.padFirstBlock_wf (State.marked_wf hm hlt)) hempty]

/-- One compression (R90, R91). -/
theorem State.finished_v_of_le (hlen : s.pendingLen.toNat ≤ 55) :
    s.finished.v = cf s.v (onlyPadBlock s.block s.pendingLen.toNat s.finished.totalBits) := by
  rw [← State.finished_block_of_le hm hlen, State.finished_of_le hlen, State.padLastBlock_v, State.marked_v]

/-- Two compressions (R90, R91). -/
theorem State.finished_v_of_ge (hge : 56 ≤ s.pendingLen.toNat) (hlt : s.pendingLen.toNat < 64) :
    s.finished.v =
      cf (cf s.v (firstPadBlock s.block s.pendingLen.toNat)) (secondPadBlock s.finished.totalBits) := by
  rw [← State.finished_block_of_ge hm hge hlt, ← State.marked_padFirstBlock_v hm hge hlt]
  exact State.padLastBlock_v _

end

/-! After a FINALIZE. -/

theorem State.digestValid_of_err_ne {s : State} (h : s.err ≠ .none) : s.digestValid = false := by
  simp [State.digestValid, h]

/-- A lifecycle violation leaves a fault recorded, its own or the one before it (R133). -/
theorem State.raiseFault_seqError_err_ne (s : State) : (s.raiseFault .seqError).err ≠ .none := by
  rw [State.raiseFault_err]
  split <;> simp [*]

/-! The statements. -/

/-- Settles O17: the path that succeeds, with the laws of its only block. -/
theorem finalizeWithOneBlock : Obligations.FinalizeWithOneBlock := by
  intro s hp hlen hm hovf hlt
  have hnocarry := State.countTail_ovf_of_lt hlt hovf
  exact ⟨_, exec_finalize_finished hp hnocarry (by omega), State.finished_totalBits_toNat_of_lt hlt,
    State.finished_v_of_le hm hlen, State.finished_block_of_le hm hlen, s.finished_ovf.trans hnocarry, by simp⟩

/-- Settles O18: the path that succeeds, with the laws of its two blocks. -/
theorem finalizeWithTwoBlocks : Obligations.FinalizeWithTwoBlocks := by
  intro s hp hge hle hm hovf hlt
  have hnocarry := State.countTail_ovf_of_lt hlt hovf
  exact ⟨_, exec_finalize_finished hp hnocarry (by omega), State.finished_totalBits_toNat_of_lt hlt,
    State.finished_v_of_ge hm hge (by omega), State.finished_block_of_ge hm hge (by omega), s.finished_ovf.trans hnocarry, by simp⟩

/-- Settles O19: either ground sets the flag that the overflow test looks at. -/
theorem finalizeOfTooLongInputFaults : Obligations.FinalizeOfTooLongInputFaults := by
  intro s hp hlong
  have hovf := s.countTail_ovf_iff.mpr hlong
  rw [exec_finalize_tooLong hp hovf, State.tooLong_eq hovf]

/-- Settles O20: the failing paths store nothing, and the stores of the one that succeeds lie where the padding does. -/
theorem finalizeFrame : Obligations.FinalizeFrame := by
  intro s t h
  cases execPath_of_exec h with
  | outside _ _ _ hp =>
    exact ⟨by simp, by simp, by simp, fun _ => s.raiseFault_eq _, fun ha => absurd ha hp, fun ha => absurd ha hp⟩
  | tooLong _ hp hovf =>
    refine ⟨by rw [State.tooLong_eq hovf], by simp, by simp, fun hn => absurd hp hn, fun _ _ => ?_, fun _ hno => ?_⟩
    · rw [State.tooLong_eq hovf]
    · simp [hovf] at hno
  | finished _ hp hovf hlen =>
    exact ⟨by simp, fun a => State.finished_read_ge hlen, fun hle a => State.finished_read_lt hle,
      fun hn => absurd hp hn, fun _ hyes => by simp [hovf] at hyes, by simp⟩

/-- Settles O26: both paths from phase ACTIVE end in phase DONE, where ABSORB and FINALIZE record a fault and do no more. -/
theorem finalizeIsOneShot : Obligations.FinalizeIsOneShot := by
  intro i s t h hp hi
  have hdone : t.phase = .done := by
    cases execPath_of_exec h with
    | outside _ _ _ hn => exact absurd hp hn
    | tooLong => exact s.tooLong_phase
    | finished => exact s.finished_phase
  refine ⟨hdone, _, exec_outside hi (by simp [hdone]), ?_, t.raiseFault_seqError_err_ne,
    State.digestValid_of_err_ne t.raiseFault_seqError_err_ne⟩
  rw [← State.raiseFault_err]
  exact t.raiseFault_eq .seqError

end Sys2Proof.Machine
end

section
/-! PROOFS. Hashing a message (41_finalize_padding.md R95, R96): the padded message byte by byte, its last blocks as those that
FINALIZE lays out, and the end of the sequence INIT, the bytes, FINALIZE. -/

namespace Sys2Proof.Machine

/-! The padded message. -/

/-- The zero bytes reach up to the last eight of the last block. -/
theorem padMessage_eq (m : List Byte) : padMessage m =
    m ++ [0x80#8] ++ List.replicate (64 * ((m.length + 9 + 63) / 64) - (m.length + 9)) 0x00#8
      ++ (List.finRange 8).map (bytes64 (BitVec.ofNat 64 (8 * m.length))) := by
  rw [padMessage, show ((55 - (m.length : Int)) % 64).toNat = 64 * ((m.length + 9 + 63) / 64) - (m.length + 9) by omega]

theorem padMessage_length (m : List Byte) : (padMessage m).length = 64 * ((m.length + 9 + 63) / 64) := by
  simp only [padMessage_eq, List.length_append, List.length_singleton, List.length_replicate, List.length_map,
    List.length_finRange]
  omega

/-- The whole blocks of the message are those of the padded message. -/
theorem chain_padMessage (v : Vector Word 8) (m : List Byte) :
    chain v (padMessage m) (m.length / 64) = chain v m (m.length / 64) := by
  simp only [padMessage, List.append_assoc]
  exact chain_append v (by omega)

theorem blockAt_getElem (m : List Byte) (i : Nat) {k : Nat} (hk : k < 64) :
    (blockAt m i)[k] = m.getD (64 * i + k) 0 := Vector.getElem_ofFn hk

/-! Its last blocks, for a tail `tail` of the message and a counter `len` that holds its bit length. -/

section
variable {m : List Byte} {tail : Vector Byte 64} {len : Word}
  (htail : ∀ (k : Nat) (hk : k < 64), k < m.length % 64 → tail[k] = m.getD (64 * (m.length / 64) + k) 0)
  (hlen : lengthField len = BitVec.ofNat 64 (8 * m.length))
include hlen

/-- The bytes of a block: the message, the marker, zeros, and in the last block the length. -/
theorem blockAt_padMessage_getElem {i k : Nat} (hi : i < (m.length + 9 + 63) / 64) (hk : k < 64) :
    (blockAt (padMessage m) i)[k] =
      if 64 * i + k < m.length then m.getD (64 * i + k) 0 else if 64 * i + k = m.length then 0x80#8
      else if h : i + 1 = (m.length + 9 + 63) / 64 ∧ 60 ≤ k then bytes32 len ⟨k - 60, by omega⟩
      else 0x00#8 := by
  have hfront : (m ++ [0x80#8] ++
      List.replicate (64 * ((m.length + 9 + 63) / 64) - (m.length + 9)) 0x00#8).length =
      64 * ((m.length + 9 + 63) / 64) - 8 := by
    simp only [List.length_append, List.length_singleton, List.length_replicate]
    omega
  rw [blockAt_getElem _ _ hk, padMessage_eq, ← hlen]
  by_cases hlast : i + 1 = (m.length + 9 + 63) / 64 ∧ 56 ≤ k
  · obtain ⟨hi, h56⟩ := hlast
    have hfield : (List.map (bytes64 (lengthField len)) (List.finRange 8)).getD (k - 56) 0 =
        bytes64 (lengthField len) ⟨k - 56, by omega⟩ := by
      rw [List.getD_eq_getElem _ _ (by simp only [List.length_map, List.length_finRange]; omega)]
      simp
    rw [List.getD_append_right _ _ _ _ (by omega), hfront,
      show 64 * i + k - (64 * ((m.length + 9 + 63) / 64) - 8) = k - 56 by omega, hfield,
      bytes64_lengthField len h56 hk, if_neg (by omega), if_neg (by omega)]
    simp only [hi, true_and]
  · rw [List.getD_append _ _ _ _ (by omega), dif_neg (by omega)]
    rcases Nat.lt_trichotomy (64 * i + k) m.length with h | h | h
    · rw [if_pos h, List.append_assoc, List.getD_append _ _ _ _ h]
    · simp [h]
    · rw [if_neg (by omega), if_neg (by omega), List.getD_append_right _ _ _ _ (by simpa)]
      exact List.getD_replicate _ (by rw [List.length_append, List.length_singleton]; omega)

include htail in
theorem blockAt_padMessage_only (hmod : m.length % 64 ≤ 55) :
    blockAt (padMessage m) (m.length / 64) = onlyPadBlock tail (m.length % 64) len := by
  refine Vector.ext fun k hk => ?_
  rw [blockAt_padMessage_getElem hlen (by omega) hk, onlyPadBlock_getElem]
  rcases Nat.lt_trichotomy k (m.length % 64) with h | h | h
  · rw [if_pos (by omega), if_pos h, htail k hk h]
  · rw [if_neg (by omega), if_pos (by omega), if_neg (by omega), if_pos h]
  · rw [if_neg (by omega), if_neg (by omega), if_neg (by omega), if_neg (by omega)]
    simp only [show m.length / 64 + 1 = (m.length + 9 + 63) / 64 by omega, true_and]

include htail in
theorem blockAt_padMessage_first (hmod : 56 ≤ m.length % 64) :
    blockAt (padMessage m) (m.length / 64) = firstPadBlock tail (m.length % 64) := by
  refine Vector.ext fun k hk => ?_
  rw [blockAt_padMessage_getElem hlen (by omega) hk, firstPadBlock_getElem, dif_neg (by omega)]
  rcases Nat.lt_trichotomy k (m.length % 64) with h | h | h
  · rw [if_pos (by omega), if_pos h, htail k hk h]
  · rw [if_neg (by omega), if_pos (by omega), if_neg (by omega), if_pos h]
  · rw [if_neg (by omega), if_neg (by omega), if_neg (by omega), if_neg (by omega)]

theorem blockAt_padMessage_second (hmod : 56 ≤ m.length % 64) :
    blockAt (padMessage m) (m.length / 64 + 1) = secondPadBlock len := by
  refine Vector.ext fun k hk => ?_
  rw [blockAt_padMessage_getElem hlen (by omega) hk, secondPadBlock_getElem, if_neg (by omega), if_neg (by omega)]
  simp only [show m.length / 64 + 1 + 1 = (m.length + 9 + 63) / 64 by omega, true_and]

end

/-! FINALIZE after the message. -/

section
variable {m : List Byte} {s : State} (h : Absorbed m s)
include h

theorem Absorbed.pendingLen_lt : s.pendingLen.toNat < 64 := by
  rw [h.pendingLen]
  omega

/-- The overflow test finds every message of `2^29` bytes or more, and no other (R85, R132). -/
theorem Absorbed.countTail_ovf : s.countTail.ovf = true ↔ 2 ^ 29 ≤ m.length := by
  rw [s.countTail_ovf_iff, h.ovf, h.totalBits, h.pendingLen]
  omega

theorem Absorbed.tail_getElem (k : Nat) (hk : k < 64) (hlt : k < m.length % 64) :
    s.block[k] = m.getD (64 * (m.length / 64) + k) 0 := by
  rw [State.block_getElem, h.tail k hlt]

theorem Absorbed.lengthField_finished (hlen : m.length < 2 ^ 29) :
    lengthField s.finished.totalBits = BitVec.ofNat 64 (8 * m.length) := by
  have hbits : s.finished.totalBits.toNat = 8 * m.length := by
    rw [s.finished_totalBits, State.countTail_totalBits, State.countBits_totalBits_toNat, h.totalBits, h.pendingLen]
    omega
  apply BitVec.eq_of_toNat_eq
  rw [lengthField, BitVec.toNat_setWidth, hbits, BitVec.toNat_ofNat]

/-- The padded tail goes on with the chain where the whole blocks left it. -/
theorem Absorbed.finished_v (hlen : m.length < 2 ^ 29) :
    s.finished.v = chain Config.iv (padMessage m) ((m.length + 9 + 63) / 64) := by
  have hfield := h.lengthField_finished hlen
  by_cases hmod : m.length % 64 ≤ 55
  · rw [State.finished_v_of_le h.wf (by rw [h.pendingLen]; exact hmod), h.pendingLen, h.v,
      ← blockAt_padMessage_only h.tail_getElem hfield hmod, ← chain_padMessage,
      show (m.length + 9 + 63) / 64 = m.length / 64 + 1 by omega, chain]
  · rw [State.finished_v_of_ge h.wf (by rw [h.pendingLen]; omega) h.pendingLen_lt, h.pendingLen, h.v,
      ← blockAt_padMessage_first h.tail_getElem hfield (by omega), ← blockAt_padMessage_second hfield (by omega),
      ← chain_padMessage, show (m.length + 9 + 63) / 64 = m.length / 64 + 1 + 1 by omega, chain, chain]

end

/-- The sequence up to the last byte leaves the absorbed state, and FINALIZE goes on from there. -/
theorem runInstrs_hashCommands (m : List Byte) {s : State} (hm : Memory.wf s.pending = true) :
    ∃ t, Absorbed m t ∧ runInstrs (hashCommands m) s = runInstrs [.finalize] t := by
  obtain ⟨t, hrun, h⟩ := (absorbed_initialise hm).runInstrs_absorbBytes m
  refine ⟨t, h, ?_⟩
  rw [hashCommands, runInstrs_cons_next (exec_init s), runInstrs_append_next hrun]

/-! The statements. -/

/-- Settles O57: the absorbed state takes the path that succeeds, and its compressions are the last of the chain. -/
theorem hashIsTheChainOverThePaddedMessage : Obligations.HashIsTheChainOverThePaddedMessage := by
  refine ⟨padMessage_length, fun m s hm hle => ?_⟩
  obtain ⟨t, h, hrun⟩ := runInstrs_hashCommands m hm
  have hovf : t.countTail.ovf = false := Bool.eq_false_of_not_eq_true fun ho => by
    have := h.countTail_ovf.mp ho
    omega
  have hv := h.finished_v (by omega)
  have herr : t.finished.err = .none := t.finished_err.trans h.err
  refine ⟨t.finished, ?_, hv, fun k => ?_, (State.digestValid_iff _).mpr ⟨t.finished_phase, herr⟩,
    State.status_of_goodEnd t.finished_phase herr t.finished_pendingLen (t.finished_ovf.trans hovf)⟩
  · rw [hrun, runInstrs_cons_next (exec_finalize_finished h.phase hovf h.pendingLen_lt), runInstrs]
  · rw [State.digestByte_eq, ← hv]
    rfl

/-- Settles O58: the absorbed state takes the path that fails, and a recorded fault leaves no digest. -/
theorem oversizeMessageGivesNoDigest : Obligations.OversizeMessageGivesNoDigest := by
  intro m s hm hge
  obtain ⟨t, h, hrun⟩ := runInstrs_hashCommands m hm
  have hovf := h.countTail_ovf.mpr hge
  have herr : t.tooLong.err = .inputTooLarge := by rw [t.tooLong_err, if_pos h.err]
  refine ⟨t.tooLong, ?_, t.tooLong_phase, herr, t.tooLong_ovf.trans hovf,
    State.digestValid_of_err_ne (by simp [herr, -State.tooLong_err])⟩
  rw [hrun, runInstrs_cons_next (exec_finalize_tooLong h.phase hovf), runInstrs]

end Sys2Proof.Machine
end

section
/-! PROOFS. Message expansion (42_message_expansion.md R101 to R103, R105): the two recurrences, and that a schedule is a
linear function of the block. -/

namespace Sys2Proof.Machine

@[simp] theorem execMicro_xpw_wp (k : Fin 52) (s : State) : (execMicro (.xpw k) s).wp = s.wp := (rfl)

/-! What EXPAND leaves in the two schedules. -/

theorem runMicro_expandOps (s : State) :
    runMicro expandOps s = runMicro ((List.finRange 64).map .xpp) (runMicro ((List.finRange 52).map .xpw)
      (runMicro ((List.finRange 16).map .ldw) s)) := by
  rw [expandOps, runMicro_append, runMicro_append]

theorem runMicro_expandOps_w (s : State) {i : Nat} (hi : i < 68) :
    (runMicro expandOps s).w[i] = (scheduleW s.block 52).getD i 0 := by
  rw [runMicro_expandOps, (runMicro_xpp _).1]
  exact runMicro_xpw_schedulePrefix s.block _ (runMicro_ldw_schedulePrefix s) i hi hi

theorem runMicro_expandOps_wp (s : State) {i : Nat} (hi : i < 64) :
    (runMicro expandOps s).wp[i] = (runMicro expandOps s).w[i] ^^^ (runMicro expandOps s).w[i + 4] := by
  rw [runMicro_expandOps, (runMicro_xpp _).2 i hi, (runMicro_xpp _).1]

/-! Linearity: of a big-endian read, of the recurrence, and so of every word of the schedule. -/

theorem xor_xor_xor_comm_word (a b c d : Word) : a ^^^ b ^^^ (c ^^^ d) = a ^^^ c ^^^ (b ^^^ d) := by
  ac_rfl

theorem be32_xor (a0 a1 a2 a3 b0 b1 b2 b3 : Byte) :
    be32 (a0 ^^^ b0) (a1 ^^^ b1) (a2 ^^^ b2) (a3 ^^^ b3) = be32 a0 a1 a2 a3 ^^^ be32 b0 b1 b2 b3 := by
  rw [be32, ← BitVec.xor_append, ← BitVec.xor_append, ← BitVec.xor_append]
  rfl

theorem extendWord_xor (x16 x13 x9 x6 x3 y16 y13 y9 y6 y3 : Word) :
    extendWord (x16 ^^^ y16) (x13 ^^^ y13) (x9 ^^^ y9) (x6 ^^^ y6) (x3 ^^^ y3) =
      extendWord x16 x13 x9 x6 x3 ^^^ extendWord y16 y13 y9 y6 y3 := by
  have hsum : x16 ^^^ y16 ^^^ (x9 ^^^ y9) ^^^ (rotl x3 15 ^^^ rotl y3 15) =
      x16 ^^^ x9 ^^^ rotl x3 15 ^^^ (y16 ^^^ y9 ^^^ rotl y3 15) := by ac_rfl
  simp only [extendWord, rotl_xor, hsum, p1_xor]
  ac_rfl

section
variable {x y z : State} (h : ∀ a : Fin 64, z.memRead1 a = x.memRead1 a ^^^ y.memRead1 a)
include h

theorem State.memRead4_xor (j : Fin 16) : z.memRead4 j = x.memRead4 j ^^^ y.memRead4 j := by
  have hread : ∀ k (_ : k < 64), z.pending.read k = x.pending.read k ^^^ y.pending.read k := fun k hk => h ⟨k, hk⟩
  rw [State.memRead4, hread _ (by omega), hread _ (by omega), hread _ (by omega), hread _ (by omega), be32_xor]
  rfl

theorem scheduleW_xor {i : Nat} (hi : i < 68) :
    (scheduleW z.block 52).getD i 0 = (scheduleW x.block 52).getD i 0 ^^^ (scheduleW y.block 52).getD i 0 := by
  induction i using Nat.strongRecOn with
  | ind i ih =>
    rcases Nat.lt_or_ge i 16 with hlow | hhigh
    · have hload := fun s : State => scheduleW_getD_lt_16 s 52 ⟨i, hlow⟩
      rw [hload, hload, hload, State.memRead4_xor h]
    · obtain ⟨k, rfl⟩ := Nat.exists_eq_add_of_le' hhigh
      have hk : k < 52 := by omega
      rw [scheduleW_getD_add_16 _ hk, scheduleW_getD_add_16 _ hk, scheduleW_getD_add_16 _ hk, ih k (by omega) (by omega),
        ih (k + 3) (by omega) (by omega), ih (k + 7) (by omega) (by omega), ih (k + 10) (by omega) (by omega),
        ih (k + 13) (by omega) (by omega), extendWord_xor]

theorem runMicro_expandOps_w_xor {i : Nat} (hi : i < 68) :
    (runMicro expandOps z).w[i] = (runMicro expandOps x).w[i] ^^^ (runMicro expandOps y).w[i] := by
  rw [runMicro_expandOps_w, runMicro_expandOps_w, runMicro_expandOps_w, scheduleW_xor h hi]

theorem runMicro_expandOps_wp_xor {i : Nat} (hi : i < 64) :
    (runMicro expandOps z).wp[i] = (runMicro expandOps x).wp[i] ^^^ (runMicro expandOps y).wp[i] := by
  rw [runMicro_expandOps_wp, runMicro_expandOps_wp, runMicro_expandOps_wp, runMicro_expandOps_w_xor h,
    runMicro_expandOps_w_xor h, xor_xor_xor_comm_word]

end

/-! The statements. -/

/-- Settles O42: each micro-operation sets one element, and R102's indices count from 16. -/
theorem expansionRecurrences : Obligations.ExpansionRecurrences := by
  refine ⟨fun s j ⟨hlow, hhigh⟩ => ?_, fun s j hj => ?_⟩
  · obtain ⟨k, rfl⟩ := Nat.exists_eq_add_of_le' hlow
    refine ⟨?_, fun i hi hne => ?_, execMicro_xpw_wp _ s⟩
    · simp [extendWord]
    · simp [hne.symm]
  · refine ⟨?_, fun i hi hne => ?_, execMicro_xpp_w _ s⟩
    · rw [execMicro_xpp_wp, Vector.getElem_set_self]
    · rw [execMicro_xpp_wp, Vector.getElem_set_ne _ _ hne.symm]

/-- Settles O49: the all-zero block is the XOR of itself with itself, so its schedules are too. -/
theorem expansionIsLinear : Obligations.ExpansionIsLinear := by
  refine ⟨fun x y z h => ⟨fun j hj => runMicro_expandOps_w_xor h hj, fun j hj => runMicro_expandOps_wp_xor h hj⟩,
    fun x h => ?_⟩
  have hself : ∀ a : Fin 64, x.memRead1 a = x.memRead1 a ^^^ x.memRead1 a := fun a => by rw [BitVec.xor_self, h a]
  exact ⟨fun j hj => (runMicro_expandOps_w_xor hself hj).trans BitVec.xor_self,
    fun j hj => (runMicro_expandOps_wp_xor hself hj).trans BitVec.xor_self⟩

end Sys2Proof.Machine
end

section
/-! PROOFS. The order of the micro-operations (42_message_expansion.md R104): a micro-operation depends on the elements it
reads and changes those it writes, so independent ones commute, and any order that keeps the dependences computes the
same. -/

namespace Sys2Proof.Machine

/-! The elements of a state. -/

/-- What an element holds; one of a schedule holds a word if its index lies there. -/
@[reducible] def Element.Value : Element → Type
  | .pending => Memory
  | .w i => i < 68 → Word
  | .wp i => i < 64 → Word
  | .working => Working
  | .v => Vector Word 8

/-- The content of an element. -/
def State.element (s : State) : (e : Element) → e.Value
  | .pending => s.pending
  | .w i => fun _ => s.w[i]
  | .wp i => fun _ => s.wp[i]
  | .working => s.work
  | .v => s.v

/-- The elements make up everything that the micro-operations compute. -/
theorem State.element_eq_iff {s t : State} : s.element = t.element ↔
    s.v = t.v ∧ s.w = t.w ∧ s.wp = t.wp ∧ s.work = t.work ∧ s.pending = t.pending := by
  refine ⟨fun h => ⟨congrFun h .v, Vector.ext fun i hi => congrFun (congrFun h (.w i)) hi,
    Vector.ext fun i hi => congrFun (congrFun h (.wp i)) hi, congrFun h .working, congrFun h .pending⟩, ?_⟩
  rintro ⟨hv, hw, hwp, hwork, hpending⟩
  funext e
  cases e <;> simp only [State.element, *]

/-! What a micro-operation does to the elements. -/

theorem execMicro_element_of_notMem_writes {op : MicroOp} {e : Element} (h : e ∉ op.writes) (s : State) :
    (execMicro op s).element e = s.element e := by
  match e with
  | .pending => exact execMicro_pending op s
  | .w i =>
    refine funext fun hi => ?_
    cases op with
    | ldw j => exact Vector.getElem_set_ne (by omega) hi (Ne.symm (by simpa [MicroOp.writes] using h))
    | xpw k => exact Vector.getElem_set_ne (by omega) hi (Ne.symm (by simpa [MicroOp.writes] using h))
    | _ => rfl
  | .wp i =>
    refine funext fun hi => ?_
    cases op with
    | xpp j => exact Vector.getElem_set_ne (by omega) hi (Ne.symm (by simpa [MicroOp.writes] using h))
    | _ => rfl
  | .working =>
    cases op with
    | ldv => simp [MicroOp.writes] at h
    | rnd j => simp [MicroOp.writes] at h
    | _ => rfl
  | .v => exact execMicro_v op s (by rintro rfl; simp [MicroOp.writes] at h)

/-- What is written depends on what is read alone. -/
theorem execMicro_element_congr {op : MicroOp} {s t : State} (h : ∀ e ∈ op.reads, s.element e = t.element e)
    {e : Element} (he : e ∈ op.writes) : (execMicro op s).element e = (execMicro op t).element e := by
  have hw : ∀ i (hi : i < 68), .w i ∈ op.reads → s.w[i] = t.w[i] := fun i hi hmem => congrFun (h (.w i) hmem) hi
  cases op with obtain rfl := List.mem_singleton.1 he
  | ldw j =>
    have hpending : s.pending = t.pending := h .pending (by simp [MicroOp.reads])
    simp [State.element, State.memRead4, hpending]
  | xpw k =>
    simp only [State.element, execMicro_xpw_w, Vector.getElem_set_self]
    rw [hw k _ (by simp [MicroOp.reads]), hw (k + 3) _ (by simp [MicroOp.reads]), hw (k + 7) _ (by simp [MicroOp.reads]),
      hw (k + 10) _ (by simp [MicroOp.reads]), hw (k + 13) _ (by simp [MicroOp.reads])]
  | xpp j =>
    simp only [State.element, execMicro_xpp_wp, Vector.getElem_set_self]
    rw [hw j _ (by simp [MicroOp.reads]), hw (j + 4) _ (by simp [MicroOp.reads])]
  | ldv =>
    exact congrArg loadWorking (h .v (by simp [MicroOp.reads]))
  | rnd j =>
    have hwork : s.work = t.work := h .working (by simp [MicroOp.reads])
    have hwp : s.wp[j.val] = t.wp[j.val] := congrFun (h (.wp j) (by simp [MicroOp.reads])) j.isLt
    simp only [State.element, execMicro_rnd_work, hwork, hwp]
    rw [hw j _ (by simp [MicroOp.reads])]
  | fbk =>
    exact congrArg₂ feedback (h .v (by simp [MicroOp.reads])) (h .working (by simp [MicroOp.reads]))

theorem execMicro_element_eq {s t : State} (h : s.element = t.element) (op : MicroOp) :
    (execMicro op s).element = (execMicro op t).element := by
  funext e
  by_cases he : e ∈ op.writes
  · exact execMicro_element_congr (fun e _ => congrFun h e) he
  · rw [execMicro_element_of_notMem_writes he, execMicro_element_of_notMem_writes he, h]

theorem runMicro_element_eq {s t : State} (h : s.element = t.element) (ops : List MicroOp) :
    (runMicro ops s).element = (runMicro ops t).element := by
  induction ops generalizing s t with
  | nil => exact h
  | cons op ops ih => exact ih (execMicro_element_eq h op)

/-! Independent micro-operations. -/

theorem MicroOp.independent_iff {a b : MicroOp} : MicroOp.independent a b = true ↔
    (∀ e ∈ a.writes, e ∉ b.reads ∧ e ∉ b.writes) ∧ ∀ e ∈ b.writes, e ∉ a.reads := by
  simp [MicroOp.independent]

/-- What `a` writes is the same before and after a `b` that writes nothing `a` reads. -/
theorem execMicro_element_of_disjoint {a b : MicroOp} (h : ∀ e ∈ b.writes, e ∉ a.reads) {e : Element}
    (he : e ∈ a.writes) (s : State) : (execMicro a (execMicro b s)).element e = (execMicro a s).element e :=
  execMicro_element_congr (fun e' hread => execMicro_element_of_notMem_writes (fun hwrite => h e' hwrite hread) s) he

/-- Each element is written by one of the two at most, from values that the other leaves alone. -/
theorem execMicro_comm {a b : MicroOp} (h : MicroOp.independent a b = true) (s : State) :
    (execMicro a (execMicro b s)).element = (execMicro b (execMicro a s)).element := by
  obtain ⟨ha, hb⟩ := MicroOp.independent_iff.1 h
  funext e
  by_cases hea : e ∈ a.writes
  · rw [execMicro_element_of_disjoint hb hea, execMicro_element_of_notMem_writes (ha e hea).2]
  · rw [execMicro_element_of_notMem_writes hea]
    by_cases heb : e ∈ b.writes
    · rw [execMicro_element_of_disjoint (fun e' he' => (ha e' he').1) heb]
    · rw [execMicro_element_of_notMem_writes heb, execMicro_element_of_notMem_writes heb,
        execMicro_element_of_notMem_writes hea]

/-! Schedules. -/

/-- A micro-operation that is independent of all before it can run first. -/
theorem runMicro_element_move_front {x : MicroOp} {p : List MicroOp}
    (h : ∀ y ∈ p, MicroOp.independent x y = true) (q : List MicroOp) (s : State) :
    (runMicro (p ++ x :: q) s).element = (runMicro (x :: (p ++ q)) s).element := by
  induction p generalizing s with
  | nil => rfl
  | cons y p ih =>
    rw [List.forall_mem_cons] at h
    calc (runMicro (y :: (p ++ x :: q)) s).element
        = (runMicro (p ++ q) (execMicro x (execMicro y s))).element := ih h.2 (execMicro y s)
      _ = (runMicro (p ++ q) (execMicro y (execMicro x s))).element := runMicro_element_eq (execMicro_comm h.1 s) (p ++ q)

theorem sublist_of_cons_sublist_append {α : Type} {x : α} {m p r : List α} (hx : x ∉ p)
    (h : (x :: m).Sublist (p ++ r)) : (x :: m).Sublist r := by
  obtain ⟨l₁, l₂, he, h₁, h₂⟩ := List.sublist_append_iff.1 h
  cases l₁ with
  | nil => rwa [he]
  | cons y l₁ =>
    obtain ⟨rfl, -⟩ := List.cons.inj he
    exact absurd (h₁.subset List.mem_cons_self) hx

/-- Induction over the reference order: in the other one, only micro-operations that are independent of the first can stand
before it, so it moves to the front, and what is left are two orders of the rest. -/
theorem runMicro_element_of_perm {l c : List MicroOp} (hperm : l.Perm c) (hnodup : c.Nodup)
    (hdep : ∀ a b, MicroOp.independent a b = false → [a, b].Sublist c → [a, b].Sublist l) (s : State) :
    (runMicro l s).element = (runMicro c s).element := by
  induction c generalizing l s with
  | nil => rw [hperm.eq_nil]
  | cons x c ih =>
    obtain ⟨p, q, rfl⟩ := List.append_of_mem (hperm.mem_iff.2 List.mem_cons_self)
    have hrest : (p ++ q).Perm c := (List.perm_middle.symm.trans hperm).cons_inv
    obtain ⟨-, -, hdisj⟩ := List.nodup_append.1 (hperm.nodup_iff.2 hnodup)
    have hxp : x ∉ p := fun hmem => hdisj x hmem x List.mem_cons_self rfl
    obtain ⟨hxc, hnodup⟩ := List.nodup_cons.1 hnodup
    have hfront : ∀ y ∈ p, MicroOp.independent x y = true := fun y hy => by
      by_contra hdepends
      have hyc : y ∈ c := hrest.mem_iff.1 (List.mem_append_left q hy)
      have hsub := hdep x y (Bool.eq_false_of_not_eq_true hdepends) ((List.singleton_sublist.2 hyc).cons_cons x)
      have hyq := List.singleton_sublist.1 (List.cons_sublist_cons.1 (sublist_of_cons_sublist_append hxp hsub))
      exact hdisj y hy y (List.mem_cons_of_mem x hyq) rfl
    rw [runMicro_element_move_front hfront]
    refine ih hrest hnodup (fun a b hab hs => ?_) (execMicro x s)
    have hsub := (hdep a b hab (hs.cons x)).erase x
    rwa [List.erase_of_not_mem fun hmem => hxc (hs.subset hmem), List.erase_append_right _ hxp, List.erase_cons_head]
      at hsub

theorem compressOps_nodup : compressOps.Nodup := by
  simp [compressOps, expandOps, List.nodup_append, List.nodup_finRange, List.nodup_map_iff_inj_on, or_imp, forall_and]

/-! The statements. -/

/-- Settles O47: independent micro-operations commute on every element. -/
theorem independentMicroOpsCommute : Obligations.IndependentMicroOpsCommute :=
  fun _ _ s h => State.element_eq_iff.1 (execMicro_comm h s)

/-- Settles O48: no micro-operation occurs twice in the reference order, so the order of a pair is well defined. -/
theorem everyScheduleComputesTheSame : Obligations.EveryScheduleComputesTheSame := by
  intro l s ⟨hperm, hdep⟩
  obtain ⟨hv, hw, hwp, _, _⟩ := State.element_eq_iff.1 (runMicro_element_of_perm hperm compressOps_nodup hdep s)
  exact ⟨hv, hw, hwp⟩

end Sys2Proof.Machine
end

section
/-! PROOFS. The compression rounds (43_compression_rounds.md R110 to R127): the round constants, the Boolean functions bit by
bit, the register bank around the rounds, and the place of each micro-operation in the reference order. -/

namespace Sys2Proof.Machine

/-! The round constants (R112, R113). -/

theorem roundConst_of_lt {j : Nat} (hj : j < 16) : roundConst j = rotl Config.baseLow (j % 32) := if_pos hj

theorem roundConst_of_le {j : Nat} (hj : 16 ≤ j) : roundConst j = rotl Config.baseHigh (j % 32) :=
  if_neg (Nat.not_lt.2 hj)

/-- Away from the switch, the closed form too goes on by one rotation a round. -/
theorem roundConst_succ {j : Nat} (hj : j + 1 ≠ 16) : roundConst (j + 1) = rotl (roundConst j) 1 := by
  rcases Nat.lt_or_ge j 16 with hlt | hge
  · rw [roundConst_of_lt (by omega), roundConst_of_lt hlt, rotl_rotl, Nat.mod_add_mod]
  · rw [roundConst_of_le (by omega), roundConst_of_le hge, rotl_rotl, Nat.mod_add_mod]

/-- R113's running form agrees with the closed form in every round, the table's 64 and beyond. -/
theorem runningConst_eq_roundConst (j : Nat) : runningConst j = roundConst j := by
  induction j with
  | zero => decide
  | succ j ih =>
    by_cases hj : j + 1 = 16
    · rw [hj]; decide
    · rw [roundConst_succ hj, ← ih, runningConst, if_neg hj]

/-! The Boolean functions (R114, R115). -/

theorem ff_of_lt {j : Nat} (hj : j < 16) (x y z : Word) : ff j x y z = x ^^^ y ^^^ z := if_pos hj

theorem ff_of_le {j : Nat} (hj : 16 ≤ j) (x y z : Word) : ff j x y z = (x &&& y) ||| (x &&& z) ||| (y &&& z) :=
  if_neg (Nat.not_lt.2 hj)

theorem gg_of_lt {j : Nat} (hj : j < 16) (x y z : Word) : gg j x y z = x ^^^ y ^^^ z := if_pos hj

theorem gg_of_le {j : Nat} (hj : 16 ≤ j) (x y z : Word) : gg j x y z = (x &&& y) ||| (~~~x &&& z) :=
  if_neg (Nat.not_lt.2 hj)

theorem getLsbD_parity (x y z : Word) (i : Nat) :
    (x ^^^ y ^^^ z).getLsbD i = (x.getLsbD i).xor ((y.getLsbD i).xor (z.getLsbD i)) := by
  rw [BitVec.getLsbD_xor, BitVec.getLsbD_xor, Bool.xor_assoc]

theorem or_and_eq_majority : ∀ a b c : Bool, (a && b || a && c || b && c) = decide (2 ≤ a.toNat + b.toNat + c.toNat) := by
  decide

theorem getLsbD_majority (x y z : Word) (i : Nat) : ((x &&& y) ||| (x &&& z) ||| (y &&& z)).getLsbD i =
    decide (2 ≤ (x.getLsbD i).toNat + (y.getLsbD i).toNat + (z.getLsbD i).toNat) := by
  simp only [BitVec.getLsbD_or, BitVec.getLsbD_and, or_and_eq_majority]

theorem or_and_eq_choose : ∀ a b c : Bool, (a && b || !a && c) = if a then b else c := by
  decide

theorem getLsbD_choose (x y z : Word) {i : Nat} (hi : i < 32) :
    ((x &&& y) ||| (~~~x &&& z)).getLsbD i = if x.getLsbD i then y.getLsbD i else z.getLsbD i := by
  simp only [BitVec.getLsbD_or, BitVec.getLsbD_and, BitVec.getLsbD_not, hi, decide_true, Bool.true_and, or_and_eq_choose]

/-! The register bank around the rounds (R111, R119). -/

@[simp] theorem execMicro_fbk_work (s : State) : (execMicro .fbk s).work = s.work := (rfl)
@[simp] theorem execMicro_fbk_w (s : State) : (execMicro .fbk s).w = s.w := (rfl)
@[simp] theorem execMicro_fbk_wp (s : State) : (execMicro .fbk s).wp = s.wp := (rfl)

/-! The reference order (R125): the micro-operations stand in it stage by stage. -/

/-- A stage that begins at position `m` has its micro-operation number `k` at position `m + k`. -/
theorem getElem?_of_stage {m n p : Nat} {l before after : List MicroOp} {op : Fin n → MicroOp}
    (hl : l = before ++ ((List.finRange n).map op ++ after)) (hm : before.length = m) (hlow : m ≤ p) (hhigh : p < m + n) :
    l[p]? = some (op ⟨p - m, by omega⟩) := by
  subst hl hm
  rw [List.getElem?_append_right hlow, List.getElem?_append_left (by simp; omega)]
  simp [show p - before.length < n by omega]

theorem compressOps_eq_stages : compressOps = (List.finRange 16).map .ldw ++ ((List.finRange 52).map .xpw ++
    ((List.finRange 64).map .xpp ++ ([.ldv] ++ ((List.finRange 64).map .rnd ++ [.fbk])))) := by
  simp only [compressOps, expandOps, List.append_assoc]

theorem expandOps_length : expandOps.length = 132 := by
  simp [expandOps]

theorem compressOps_length : compressOps.length = 198 := by
  simp [compressOps, expandOps_length]

theorem compressOps_getElem?_ldw {p : Nat} (h : p < 16) : compressOps[p]? = some (.ldw ⟨p, h⟩) :=
  getElem?_of_stage (before := []) compressOps_eq_stages rfl (Nat.zero_le p) (by omega)

theorem compressOps_getElem?_xpw {p : Nat} (h : 16 ≤ p ∧ p < 68) : compressOps[p]? = some (.xpw ⟨p - 16, by omega⟩) :=
  getElem?_of_stage compressOps_eq_stages (by simp) h.1 h.2

theorem compressOps_getElem?_xpp {p : Nat} (h : 68 ≤ p ∧ p < 132) : compressOps[p]? = some (.xpp ⟨p - 68, by omega⟩) :=
  getElem?_of_stage (compressOps_eq_stages.trans (List.append_assoc ..).symm) (by simp) h.1 h.2

theorem compressOps_getElem?_ldv : compressOps[132]? = some .ldv := by
  rw [compressOps, List.append_assoc, List.append_assoc, List.getElem?_append_right expandOps_length.le, expandOps_length]
  rfl

theorem compressOps_getElem?_rnd {p : Nat} (h : 133 ≤ p ∧ p < 197) :
    compressOps[p]? = some (.rnd ⟨p - 133, by omega⟩) :=
  getElem?_of_stage (before := expandOps ++ [.ldv]) (by rw [compressOps, List.append_assoc]) (by simp [expandOps_length])
    h.1 h.2

theorem compressOps_getElem?_fbk : compressOps[197]? = some .fbk := by
  rw [compressOps, List.getElem?_append_right (by simp [expandOps_length])]
  simp [expandOps_length]

/-! The statements. -/

/-- Settles O39: round 16 is where parity gives way to majority and choose, each read at one bit. -/
theorem booleanFunctionsBitwise : Obligations.BooleanFunctionsBitwise := by
  intro j x y z i hi
  by_cases hj : j ≤ 15
  · rw [if_pos hj, if_pos hj, ff_of_lt (by omega), gg_of_lt (by omega)]
    exact ⟨getLsbD_parity x y z i, getLsbD_parity x y z i⟩
  · rw [if_neg hj, if_neg hj, ff_of_le (by omega), gg_of_le (by omega)]
    exact ⟨getLsbD_majority x y z i, getLsbD_choose x y z hi⟩

/-- Settles O46: the stages of a compression leave in `V` what `CF` computes from the list of the schedule. -/
theorem compressIsTheCompressionFunction : Obligations.CompressIsTheCompressionFunction :=
  State.compress_v_eq_cf

/-- Settles O40: the table is the closed form run on 64 rounds, and the running form is the closed form. -/
theorem roundConstantSequence : Obligations.RoundConstantSequence := by
  refine ⟨?table, fun j hj => roundConst_of_lt (by omega), fun j hj _ => roundConst_of_le hj,
    fun j _ => runningConst_eq_roundConst j⟩
  case table => decide

/-- Settles O43: the fields LDV and FBK write, and those they leave. -/
theorem loadAndFeedback : Obligations.LoadAndFeedback :=
  ⟨fun s => ⟨execMicro_ldv_work s, execMicro_ldv_w s, execMicro_ldv_wp s, execMicro_pending .ldv s⟩, execMicro_v,
    fun s => ⟨execMicro_fbk_work s, execMicro_fbk_w s, execMicro_fbk_wp s, execMicro_pending .fbk s,
      congrArg Vector.toList (execMicro_fbk_v s)⟩⟩

/-- Settles O44: `round` reads the registers of the state it is given, and is the only thing RND writes into them. -/
theorem roundWritesInParallel : Obligations.RoundWritesInParallel :=
  fun s j => ⟨execMicro_rnd_work j s, execMicro_rnd_w j s, execMicro_rnd_wp j s, execMicro_v (.rnd j) s nofun⟩

/-- Settles O45: the positions stage by stage, and the frame of a compression. -/
theorem compressOrderAndFrame : Obligations.CompressOrderAndFrame :=
  ⟨⟨compressOps_length, fun _ => compressOps_getElem?_ldw, fun _ => compressOps_getElem?_xpw,
      fun _ => compressOps_getElem?_xpp, compressOps_getElem?_ldv, fun _ => compressOps_getElem?_rnd,
      compressOps_getElem?_fbk⟩,
    fun s => ⟨s.compress_v, s.compress_pending, s.compress_pendingLen, s.compress_totalBits, s.compress_ovf,
      s.compress_err, s.compress_phase, s.compress_inputs⟩⟩

end Sys2Proof.Machine
end

section
/-! PROOFS. The faults (60_exceptions.md R130 to R133): when raising one changes `err`, and which commands change it. The
statement about a step follows from the one about a command. -/

namespace Sys2Proof.Machine

/-- A fault changes `err` only where none is recorded, and then to its own code (R133). -/
theorem State.raiseFault_err_of_ne {s : State} {c : ErrCode} (h : (s.raiseFault c).err ≠ s.err) :
    s.err = .none ∧ (s.raiseFault c).err = c := by
  have hnone : s.err = .none := by
    by_contra herr
    exact h (by rw [State.raiseFault_of_err herr])
  exact ⟨hnone, by rw [State.raiseFault_err, if_pos hnone]⟩

/-- Settles O21: the lifecycle violation raises SEQ_ERROR, and a fault writes `err` alone. -/
theorem lifecycleViolationIsRecordedOnly : Obligations.LifecycleViolationIsRecordedOnly := by
  intro i s hi hp
  rw [exec_outside hi hp, s.raiseFault_eq, State.raiseFault_err]

/-- Settles O23: two paths raise a fault, which `err` takes only if it was 0; INIT clears it; the others keep it. -/
theorem onlyTheListedFaultsAreRecorded : Obligations.OnlyTheListedFaultsAreRecorded := by
  intro i s t h hne
  cases execPath_of_exec h with
  | nop => exact absurd rfl hne
  | init => exact .inl ⟨rfl, s.initialise_err⟩
  | outside _ _ hi hp => exact .inr (.inl ⟨hi, hp, State.raiseFault_err_of_ne hne⟩)
  | store => exact absurd rfl hne
  | block b => exact absurd (s.absorbedBlock_err b) hne
  | tooLong _ hp hovf =>
    obtain ⟨hnone, herr⟩ := State.raiseFault_err_of_ne (s := s.countTail.setPhase .done) hne
    exact .inr (.inr ⟨rfl, hp, hnone, herr, s.tooLong_ovf.trans hovf⟩)
  | finished => exact absurd s.finished_err hne

/-- The one command that changes a recorded fault is INIT, which clears it (R133). -/
theorem exec_init_of_err_ne {i : Instr} {s t : State} (h : exec i s = .next t) (herr : s.err ≠ .none)
    (hne : t.err ≠ s.err) : i = .init ∧ t.err = .none := by
  rcases onlyTheListedFaultsAreRecorded i s t h hne with hinit | ⟨_, _, hnone, _⟩ | ⟨_, _, hnone, _⟩
  · exact hinit
  · exact absurd hnone herr
  · exact absurd hnone herr

/-- Settles O22: of the steps, waiting keeps `err`, a hardware reset clears it, and of the commands only INIT does. -/
theorem firstFaultIsKept : Obligations.FirstFaultIsKept := by
  refine ⟨State.raiseFault_err, fun s t h herr hne => ?_, fun s => State.digestValid_of_err_ne⟩
  rcases step_cases s with ⟨_, he⟩ | ⟨p, rest, hin, ⟨hr, he⟩ | ⟨_, hv, he⟩ | ⟨_, _, he⟩⟩ <;> rw [he] at h
  · cases h
    exact absurd rfl hne
  · cases h
    exact ⟨p, rest, hin, rfl, .inl hr⟩
  · obtain ⟨hinit, hclear⟩ := exec_init_of_err_ne h herr hne
    exact ⟨p, rest, hin, hclear, .inr ⟨hv, hinit⟩⟩
  · cases h
    exact absurd rfl hne

end Sys2Proof.Machine
end
